-- ==== Sys2Proof/Word.lean ====
section
/-! DEFINITION. The bit-vector types of the block: the widths are those of spec/10_state.md and
spec/30_encoding.md. -/

namespace Sys2Proof

/-- One byte of the receive or transmit stream (20_memory.md R50). -/
abbrev Byte := BitVec 8

/-- A 32-bit register: the numeric accumulator and the running CRC (10_state.md R22, R25). -/
abbrev Word32 := BitVec 32

/-- A command word of the operation port (30_encoding.md R90). -/
abbrev CmdWord := BitVec 16

/-- A slot address, 0 to 15 (00_scope.md R3, R8). -/
abbrev Slot := BitVec 4

/-- The turn estimate, 5 bits two's complement (10_state.md R33). -/
abbrev Turn := BitVec 5

end Sys2Proof
end

