-- ==== Sys2Proof/Machine/Operands.lean ====
section
/-! DEFINITION. Operand forms: the byte classes and digit values of the wire format, the digit assembly,
the fields of a command word, and the arithmetic of slots and time (spec/30_encoding.md R71 to R73, R81,
R83, R90; spec/00_scope.md R16). -/

namespace Sys2Proof.Machine

/-! The characters of 30_encoding.md R71 and the single-byte classes of R72. -/

/-- `COLON`. -/
@[simp] abbrev colon : Byte := 0x3A#8
/-- `SP`. -/
@[simp] abbrev sp : Byte := 0x20#8
/-- `BAR`. -/
@[simp] abbrev bar : Byte := 0x7C#8
/-- `NL`. -/
@[simp] abbrev nl : Byte := 0x0A#8
/-- `CR`. -/
@[simp] abbrev cr : Byte := 0x0D#8
/-- `MINUS`. -/
@[simp] abbrev minus : Byte := 0x2D#8
/-- `LET_A`. -/
@[simp] abbrev letA : Byte := 0x41#8
/-- `LET_V`. -/
@[simp] abbrev letV : Byte := 0x56#8
/-- `LET_T`. -/
@[simp] abbrev letT : Byte := 0x54#8
/-- `LET_B`. -/
@[simp] abbrev letB : Byte := 0x42#8

/-- `lo <= b <= hi` on byte values. -/
def inRange (lo hi : Nat) (b : Byte) : Bool := decide (lo ≤ b.toNat) && decide (b.toNat ≤ hi)

/-- `DEC` (R72). -/
def isDec (b : Byte) : Bool := inRange 0x30 0x39 b

/-- `BTN` (R72). -/
def isBtn (b : Byte) : Bool := inRange 0x30 0x35 b

/-- `HEXLC` (R72): lowercase only. -/
def isHexLc (b : Byte) : Bool := inRange 0x30 0x39 b || inRange 0x61 0x66 b

/-- `UPOTHER` (R72): an uppercase letter other than `A`, `B`, `T` and `V`. -/
def isUpOther (b : Byte) : Bool := inRange 0x43 0x5A b && b != letT && b != letV

/-- `decval` (R73), for a byte in `DEC`. -/
def decval (b : Byte) : Nat := b.toNat - 0x30

/-- `hexval` (R73), for a byte in `HEXLC`. -/
def hexval (b : Byte) : Nat := if inRange 0x30 0x39 b then b.toNat - 0x30 else b.toNat - 0x61 + 10

/-- One decimal digit shifted in (R81), in the 32-bit accumulator of 10_state.md R22. -/
def decShift (acc : Word32) (b : Byte) : Word32 := BitVec.ofNat 32 (acc.toNat * 10 + decval b)

/-- One hex digit shifted in, modulo 2^32 (R83). -/
def hexShift (acc : Word32) (b : Byte) : Word32 := BitVec.ofNat 32 (acc.toNat * 16 + hexval b)

/-- `hexchar` (41_crc.md R167). -/
def hexchar (n : Nat) : Byte := if n ≤ 9 then BitVec.ofNat 8 (0x30 + n) else BitVec.ofNat 8 (0x61 + n - 10)

/-! The fields of a command word (R90). -/

/-- `op`, bits [2:0]. -/
def opField (w : CmdWord) : BitVec 3 := w.extractLsb' 0 3

/-- `v`, bit [3]. -/
def vField (w : CmdWord) : Bool := w.getLsbD 3

/-- `b`, bits [15:8]. -/
def bField (w : CmdWord) : Byte := w.extractLsb' 8 8

/-- A command word from its fields; bits [7:4] are "ignored; written 0" (R90). -/
def cmdWord (b : Byte) (v : Bool) (op : BitVec 3) : CmdWord :=
  BitVec.ofNat 16 (b.toNat * 256 + v.toNat * 8 + op.toNat)

/-! Slots and time. -/

/-- A slot address as a value of the turn register (10_state.md R33). -/
def slotTurn (a : Slot) : Turn := BitVec.ofNat 5 a.toNat

/-- `trunc_W(t)` (00_scope.md R16). -/
def truncTime (w : Nat) (t : Nat) : Nat := t % 2 ^ w

/-- `trunc_W(now - last)`, on mathematical integers (42_arbiter.md R195). -/
def elapsed (w : Nat) (now last : Nat) : Nat := (((now : Int) - (last : Int)) % ((2 ^ w : Nat) : Int)).toNat

end Sys2Proof.Machine
end

