-- ==== Sys2Proof/Config.lean ====
section
/-! DEFINITION. The implementation parameters of spec/00_scope.md section 3. The spec leaves each OPEN
and says that the model takes it as an argument: `State.cfg` carries it (log entry 1). -/

namespace Sys2Proof

/-- `P_CHECKSUM_POLICY` (00_scope.md R13). -/
inductive ChecksumPolicy where
  | acceptRegardless
  | rejectOnMismatch
  deriving DecidableEq, Repr

/-- `N_SLOTS`, fixed at 16 (00_scope.md R9). -/
def nSlots : Nat := 16

/-- The configuration, fixed before reset and written by no operation (10_state.md R39). -/
structure Config where
  /-- `P_MY_ADDR`, 0 to 15 (R8). -/
  myAddr : Slot
  /-- `P_CYCLE_US`, at least 1 (R10). -/
  cycleUs : Nat
  /-- `P_BYTE_TIME_US`, at least 0 (R11). -/
  byteTimeUs : Nat
  /-- `P_TIME_WIDTH`, at least 1 (R12). -/
  timeWidth : Nat
  /-- `P_CHECKSUM_POLICY` (R13). -/
  policy : ChecksumPolicy
  /-- `P_CRC_RESTART_ON_START` (R14). -/
  crcRestart : Bool
  deriving DecidableEq, Repr

/-- The ranges of 00_scope.md R10 and R12; the other ranges hold by type. -/
abbrev Config.valid (c : Config) : Prop := 1 ≤ c.cycleUs ∧ 1 ≤ c.timeWidth

/-- The configuration of the spec's own vectors (95_test_vectors.md section 1), with the policy the
source calls "the current contract" (00_scope.md R13). Only `State.reset` uses it.
DESIGN CHOICE (log entry 2): the spec leaves every one of these values open. -/
def Config.vectors : Config where
  myAddr := 5#4
  cycleUs := 3200
  byteTimeUs := 100
  timeWidth := 32
  policy := .acceptRegardless
  crcRestart := false

end Sys2Proof
end

