-- ==== Sys2Proof/Syntax.lean ====
section
/-! DEFINITION. The operations of the block: one constructor per row of spec/opcode_table.json. -/

namespace Sys2Proof

/-- The first nine are the command words of the operation port (30_encoding.md R91, R93), the others the
wire tokens (R70, R74 to R80). The side operands `now` and `payload` are no part of the word (R90). -/
inductive Instr where
  | nop
  | parse (b : Byte)
  | preset
  | canSend
  | send
  | recvByte (b : Byte)
  | recvIdle
  | reserved110
  | reserved111
  | frameStart
  | fieldA
  | fieldV
  | fieldT
  | fieldB
  | fieldUnknown (letter : Byte)
  | separatorSp
  | checksumStart
  | frameEnd
  | checksumCr
  deriving DecidableEq, Repr

/-- The two encodings of 30_encoding.md: a command word of the operation port (format CMD16) or a byte
of the wire (format WIRE8). -/
inductive Encoded where
  | command (w : CmdWord)
  | wire (b : Byte)
  deriving DecidableEq, Repr

end Sys2Proof
end

