-- ==== Sys2Proof/Machine/State.lean ====
section
/-! DEFINITION. The state of the block as plain data: every register of spec/10_state.md, the configuration,
the operation port, the pending moves of the environment, and the ghost history. Widths and reset values
are listed in INVENTORY.md. -/

namespace Sys2Proof.Machine

/-- `P.state`: the nine values of 10_state.md R26, as the enumeration R27 allows. -/
inductive PState where
  | initial
  | idle
  | skipping
  | invalid
  | address
  | voltage
  | temperature
  | button
  | checksum
  deriving DecidableEq, Repr

/-- The transport direction (10_state.md R37). -/
inductive Dir where
  | rx
  | tx
  deriving DecidableEq, Repr

/-- The violation labels X1 to X10 of 60_exceptions.md R221; "not hardware state". -/
inductive Violation where
  | x1 | x2 | x3 | x4 | x5 | x6 | x7 | x8 | x9 | x10
  deriving DecidableEq, Repr

/-- The ghost events the spec lets a model record (60_exceptions.md R221, R240). -/
inductive GhostEvent where
  | violation (x : Violation)
  | outOfTurn
  deriving DecidableEq, Repr

/-- What SEND asks of the transport (00_scope.md R17). -/
inductive TxAction where
  | setDir (d : Dir)
  | write (b : Byte)
  | flush
  deriving DecidableEq, Repr

/-- A Message (10_state.md R38). -/
structure Message where
  address : Slot
  voltage : Option (BitVec 14)
  temperature : Option (BitVec 15)
  button : Option (BitVec 3)
  deriving DecidableEq, Repr

/-- The Parser registers (10_state.md R22 to R31). -/
structure ParserRegs where
  /-- `P.state` -/
  state : PState
  /-- `P.acc` -/
  acc : Word32
  /-- `P.cnt` -/
  cnt : BitVec 4
  /-- `P.neg` -/
  neg : Bool
  /-- `P.crc` -/
  crc : Word32
  /-- `P.addr_v` -/
  addrV : Bool
  /-- `P.addr` -/
  addr : Slot
  /-- `P.volt_v` -/
  voltV : Bool
  /-- `P.volt` -/
  volt : BitVec 14
  /-- `P.temp_v` -/
  tempV : Bool
  /-- `P.temp`, two's complement -/
  temp : BitVec 15
  /-- `P.btn_v` -/
  btnV : Bool
  /-- `P.btn` -/
  btn : BitVec 3
  deriving DecidableEq, Repr

/-- The Arbiter registers (10_state.md R33 to R35) and the driven direction flag (R37). -/
structure ArbRegs where
  /-- `A.turn`, two's complement -/
  turn : Turn
  /-- `A.last`, a value of `P_TIME_WIDTH` bits -/
  last : Nat
  /-- `A.idle` -/
  idle : Bool
  /-- `A.dir` -/
  dir : Dir
  deriving DecidableEq, Repr

/-- The side operands of the call being run (30_encoding.md R90), and where the transport stops completing what a
SEND asks of it (60_exceptions.md R236; log entry 12): nowhere, or after that many byte writes, the flush after the
last of them. -/
structure Port where
  now : Nat
  payload : List Byte
  txStall : Option Nat
  deriving DecidableEq, Repr

/-- One move of the environment: a call of the control loop, a wire byte handed to the Parser driven alone
(20_memory.md R50), or power-on reset at a time (70_reset_and_hazards.md R251). -/
inductive Event where
  | call (word : CmdWord) (now : Nat) (payload : List Byte) (txStall : Option Nat)
  | wire (b : Byte)
  | powerOn (t : Nat)
  deriving DecidableEq, Repr

/-- The machine. `parser` and `arb` are the whole architectural state (10_state.md R20, R36); `cfg` is the
model's argument, which nothing writes (R39); the other fields are the model's own (INVENTORY.md). -/
structure State where
  cfg : Config
  parser : ParserRegs
  arb : ArbRegs
  port : Port
  inbox : List Event
  msg : Option Message
  cs : Option Bool
  tx : List TxAction
  ghost : List GhostEvent
  /-- A SEND has begun and the transport never completes it: the block is inside SEND (70_reset_and_hazards.md R267). -/
  hung : Bool
  deriving DecidableEq, Repr

/-- Why the machine stops. -/
inductive Fault where
  /-- Raised by `step` alone, when the block hangs inside SEND and no power-on reset is to come: a pending call waits for
  a SEND that never returns (20_memory.md R58, 60_exceptions.md R236, 93 row 11: "stuck"; log entry 12). Safe: the
  hardware makes no further step either. -/
  | transportStalled
  deriving DecidableEq, Repr

/-- Why an operation has no meaning. -/
inductive Refusal where
  /-- Raised by `exec` for an operation not modelled yet. Safe. -/
  | notModelled (mnemonic : String)
  /-- Raised by the reserved op codes 110 and 111, which "a model refuses" (30_encoding.md R93). Safe. -/
  | reservedOp (op : BitVec 3)
  deriving DecidableEq, Repr

/-- The Parser part of the power-on values (70_reset_and_hazards.md R250). -/
def ParserRegs.reset : ParserRegs where
  state := .initial
  acc := 0#32
  cnt := 0#4
  neg := false
  crc := 0#32
  addrV := false
  addr := 0#4
  voltV := false
  volt := 0#14
  tempV := false
  temp := 0#15
  btnV := false
  btn := 0#3

/-- The Arbiter part of the power-on values (70_reset_and_hazards.md R250): turn -1 is the pattern 11111.
`t` is the clock value when reset is released, of `w` bits. -/
def ArbRegs.reset (w t : Nat) : ArbRegs where
  turn := 31#5
  last := t % 2 ^ w
  idle := false
  dir := .rx

/-- The machine right after power-on reset at time `t`, under any configuration
(70_reset_and_hazards.md R251). -/
def State.powerOn (cfg : Config) (t : Nat) : State where
  cfg := cfg
  parser := ParserRegs.reset
  arb := ArbRegs.reset cfg.timeWidth t
  port := { now := t, payload := [], txStall := none }
  inbox := []
  msg := none
  cs := none
  tx := []
  ghost := []
  hung := false

/-- The machine right after reset. The configuration and the time are DESIGN CHOICES (log entries 2 and 3);
the statements are about `State.powerOn cfg t` for every `cfg` and `t`. -/
def State.reset : State := State.powerOn Config.vectors 0

end Sys2Proof.Machine
end

