-- ==== Sys2Proof/Machine/Crc.lean ====
section
/-! DEFINITION. The CRC-32 of spec/41_crc.md: the function (R160, R161, R165), what the Parser folds (R162,
R164), and the framing of the transmit side (R166, R167). -/

namespace Sys2Proof.Machine

/-- One of the eight shifts of R160: "if r[31] == 1". -/
def crcShift (r : Word32) : Word32 := if r.getLsbD 31 then (r <<< 1) ^^^ 0x04C11DB7#32 else r <<< 1

/-- `n` shifts. -/
def crcShifts : Nat → Word32 → Word32
  | 0, r => r
  | n + 1, r => crcShifts n (crcShift r)

/-- `CrcUpdate(r, b)` (R160). -/
def crcUpdate (r : Word32) (b : Byte) : Word32 := crcShifts 8 (r ^^^ (b.setWidth 32 <<< 24))

/-- `CrcFinal(r)` (R161). -/
def crcFinal (r : Word32) : Word32 := r ^^^ 0xFFFFFFFF#32

/-- The fold of `CrcUpdate` over a byte sequence. -/
def crcFoldBytes : Word32 → List Byte → Word32
  | r, [] => r
  | r, b :: bs => crcFoldBytes (crcUpdate r b) bs

/-- `Crc32(s)` (R165). -/
def crc32 (s : List Byte) : Word32 := crcFinal (crcFoldBytes 0#32 s)

/-- The frame-start byte, restarting the running CRC first where the parameter says so (R162, R164). -/
def crcFrameStart (restart : Bool) (r : Word32) (b : Byte) : Word32 :=
  crcUpdate (if restart then 0#32 else r) b

/-- `CrcFold(s0, b)` (R162): what `P.crc` becomes when byte `b` is read in state `s0`. -/
def crcFold (cfg : Config) (s0 : PState) (b : Byte) (r : Word32) : Word32 :=
  match s0 with
  | .initial => if b = colon then crcFrameStart cfg.crcRestart r b else r
  | .checksum => r
  | .invalid => r
  | .idle => crcUpdate r b
  | .skipping => crcUpdate r b
  | .address => crcUpdate r b
  | .voltage => crcUpdate r b
  | .temperature => crcUpdate r b
  | .button => crcUpdate r b

/-- Nibble `k` of a 32-bit value, nibble 7 the most significant. -/
def nibble (c : Word32) (k : Nat) : Nat := c.toNat / 16 ^ k % 16

/-- `Hex8(c)` (R167): most significant nibble first, lowercase, leading zeros written. -/
def hex8 (c : Word32) : List Byte :=
  [hexchar (nibble c 7), hexchar (nibble c 6), hexchar (nibble c 5), hexchar (nibble c 4),
    hexchar (nibble c 3), hexchar (nibble c 2), hexchar (nibble c 1), hexchar (nibble c 0)]

/-- The bytes the frame's CRC covers: marker, payload, marker (R166). -/
def frameBody (payload : List Byte) : List Byte := colon :: (payload ++ [bar])

/-- `Frame(payload)` (R166). -/
def frame (payload : List Byte) : List Byte :=
  frameBody payload ++ hex8 (crc32 (frameBody payload)) ++ [nl]

end Sys2Proof.Machine
end

