-- ==== Sys2Proof/Machine/Flags.lean ====
section
/-! DEFINITION. The flag and predicate computations: the digit count, the sign rule, the checksum match, the
emission test, the grace and the `can_send` output. The block has no condition codes (spec/10_state.md R42). -/

namespace Sys2Proof.Machine

/-- The digit count after one more digit: "incrementing saturates at 15" (10_state.md R23). -/
def bumpCnt (cnt : BitVec 4) : BitVec 4 := BitVec.ofNat 4 (min 15 (cnt.toNat + 1))

/-- Whether a `-` is accepted in Temperature (40_parser.md R118). -/
def minusAllowed (p : ParserRegs) : Bool := p.cnt == 0#4 && !p.neg

/-- The value a Temperature commit stores, as a mathematical integer; `-0` is 0 (R119). -/
def signedAcc (p : ParserRegs) : Int := if p.neg then -(p.acc.toNat : Int) else (p.acc.toNat : Int)

/-- The comparison of `ChecksumOk` (R128): the finalised CRC against the digits. -/
def checksumMatch (p : ParserRegs) : Bool := p.acc == crcFinal p.crc

/-- `ChecksumOk()` under the policy (R128). -/
def checksumOk (policy : ChecksumPolicy) (p : ParserRegs) : Bool :=
  match policy with
  | .acceptRegardless => true
  | .rejectOnMismatch => checksumMatch p

/-- `Grace()` (42_arbiter.md R196). -/
def grace (cfg : Config) (idle : Bool) : Nat := if idle then 0 else cfg.byteTimeUs

/-- The output `can_send`: "`A.turn` is read as a signed value" (10_state.md R40). -/
def canSend (cfg : Config) (turn : Turn) : Bool := decide (turn.toInt = (cfg.myAddr.toNat : Int))

/-- Whether an idle RECV advances the turn: `e >= g` and `e - g >= P_CYCLE_US` (42_arbiter.md R195). -/
def silenceElapsed (cfg : Config) (e g : Nat) : Bool := decide (g ≤ e) && decide (cfg.cycleUs ≤ e - g)

end Sys2Proof.Machine
end

