-- ==== Sys2Proof/Machine/Ops.lean ====
section
/-! DEFINITION. The shared operations: updates of State, the Parser's register operations, entering Invalid and
leaving it (the block's nearest equivalents of taking a trap and returning from one, spec/60_exceptions.md
R222, R223), the transmit sequence and the silence advance. -/

namespace Sys2Proof.Machine

/-! Updates of State, one field each. -/

def State.withParser (s : State) (p : ParserRegs) : State := { s with parser := p }

def State.withArb (s : State) (a : ArbRegs) : State := { s with arb := a }

def State.withMsg (s : State) (m : Option Message) : State := { s with msg := m }

def State.withCs (s : State) (b : Bool) : State := { s with cs := some b }

/-- Bytes and direction changes handed to the transport, after those handed before (20_memory.md R60). -/
def State.transmit (s : State) (acts : List TxAction) : State := { s with tx := s.tx ++ acts }

/-- The block enters a SEND that the transport never completes (70_reset_and_hazards.md R267). -/
def State.hang (s : State) : State := { s with hung := true }

/-- Ghost events recorded; no step reads them (60_exceptions.md R221). -/
def State.record (s : State) (g : List GhostEvent) : State := { s with ghost := s.ghost ++ g }

/-! What a Parser state rule leaves: the registers, and the label of the violation if there was one. -/

abbrev Ruled := ParserRegs × Option Violation

/-- A rule that ends without a violation. -/
def ruleOk (p : ParserRegs) : Ruled := (p, none)

/-- `goto_invalid(X)`: "It writes `P.state <- Invalid` and nothing else" (60_exceptions.md R222). -/
def gotoInvalid (x : Violation) (p : ParserRegs) : Ruled := ({ p with state := .invalid }, some x)

/-- `PRESET()` on the Parser registers, the one way out of Invalid (40_parser.md R140, 60_exceptions.md R223). -/
def preset (p : ParserRegs) : ParserRegs :=
  { p with
    state := .initial
    acc := 0#32, neg := false, cnt := 0#4
    crc := 0#32
    addrV := false, voltV := false, tempV := false, btnV := false
    addr := 0#4, volt := 0#14, temp := 0#15, btn := 0#3 }

/-- `P.state <- x`. -/
def gotoState (x : PState) (p : ParserRegs) : ParserRegs := { p with state := x }

/-- `AccReset()` (40_parser.md R104). -/
def accReset (p : ParserRegs) : ParserRegs := { p with acc := 0#32, neg := false, cnt := 0#4 }

/-- The Voltage part of `Commit` (R105), in the 14 bits of 10_state.md R29. -/
def commitVolt (p : ParserRegs) : ParserRegs := { p with volt := BitVec.ofNat 14 p.acc.toNat, voltV := true }

/-- The Temperature part of `Commit` (R105, R119), in the 15 bits of 10_state.md R30. -/
def commitTemp (p : ParserRegs) : ParserRegs := { p with temp := BitVec.ofInt 15 (signedAcc p), tempV := true }

/-- `DecDigit(b)` (R114). -/
def decDigit (b : Byte) (p : ParserRegs) : Ruled :=
  if p.cnt = 4#4 then gotoInvalid .x3 p
  else ruleOk { p with acc := decShift p.acc b, cnt := bumpCnt p.cnt }

/-- `DecTerminator(s0, b)` (R115), given the commit of the state it runs in. -/
def decTerminator (commit : ParserRegs → ParserRegs) (b : Byte) (p : ParserRegs) : Ruled :=
  if p.cnt = 0#4 then gotoInvalid .x4 p
  else ruleOk (gotoState (if b = sp then .idle else .checksum) (accReset (commit p)))

/-- `TempMinus()` (R118). -/
def tempMinus (p : ParserRegs) : Ruled :=
  if minusAllowed p then ruleOk { p with neg := true } else gotoInvalid .x5 p

/-- The address digit (R112). -/
def addrSet (b : Byte) (p : ParserRegs) : ParserRegs := { p with addr := BitVec.ofNat 4 (hexval b), addrV := true }

/-- `ButtonSet(b)` (R121). -/
def buttonSet (b : Byte) (p : ParserRegs) : ParserRegs := { p with btn := BitVec.ofNat 3 (decval b), btnV := true }

/-- `HexDigit(b)` (R124). -/
def hexDigit (b : Byte) (p : ParserRegs) : ParserRegs := { p with acc := hexShift p.acc b, cnt := bumpCnt p.cnt }

/-- `ChecksumEnd()` (R126): the length is judged before the CRC (60_exceptions.md R228). -/
def checksumEnd (policy : ChecksumPolicy) (p : ParserRegs) : Ruled :=
  if p.cnt ≠ 8#4 then gotoInvalid .x8 p
  else if checksumOk policy p then ruleOk (gotoState .initial p)
  else gotoInvalid .x9 p

/-- An optional field: its value where its presence bit is set. -/
def present {α : Type} (v : Bool) (x : α) : Option α := if v then some x else none

/-- The Message the registers hold (R102, R103). -/
def heldMessage (p : ParserRegs) : Message where
  address := p.addr
  voltage := present p.voltV p.volt
  temperature := present p.tempV p.temp
  button := present p.btnV p.btn

/-- `EmitTest()` (R102). -/
def emitTest (p : ParserRegs) : Option Message :=
  if p.state = .initial ∧ p.addrV = true then some (heldMessage p) else none

/-- The ghost record of a violation, if there was one. -/
def violations (x : Option Violation) : List GhostEvent := x.toList.map .violation

/-! The port's view of a Message and of the Parser state. -/

/-- The presence bit of an optional field and, above it, its value; 0 when absent (30_encoding.md R92). -/
def fieldBits {w : Nat} (x : Option (BitVec w)) : BitVec (w + 1) := x.getD (BitVec.zero w) ++ BitVec.ofBool x.isSome

/-- The 40-bit layout of the `msg` result (30_encoding.md R92), from bit 39 down. -/
def msgBits : Option Message → BitVec 40
  | none => 0#40
  | some m =>
    (fieldBits m.button ++ fieldBits m.temperature ++ fieldBits m.voltage ++ m.address ++ 1#1).cast rfl

/-- The 4-bit code of `P.state` (10_state.md R27); no operation can read it. -/
def PState.code : PState → BitVec 4
  | .initial => 0#4
  | .idle => 1#4
  | .skipping => 2#4
  | .invalid => 3#4
  | .address => 4#4
  | .voltage => 5#4
  | .temperature => 6#4
  | .button => 7#4
  | .checksum => 8#4

/-! Transmission and the silence advance. -/

/-- What one SEND asks of the transport, in order (42_arbiter.md R182 to R184, 20_memory.md R56). -/
def sendActions (payload : List Byte) : List TxAction :=
  .setDir .tx :: ((frame payload).map .write ++ [.flush, .setDir .rx])

/-- What a SEND has asked of the transport when the transport stops after completing `k` byte writes: the direction, these
writes, and the write or the flush that never completes (70_reset_and_hazards.md R267). -/
def stalledActions (payload : List Byte) (k : Nat) : List TxAction :=
  (sendActions payload).take (min k (frame payload).length + 2)

/-- The ghost record of a SEND: "out-of-turn" when CAN_SEND would return 0 (60_exceptions.md R240). -/
def sendGhost (cfg : Config) (turn : Turn) : List GhostEvent :=
  if canSend cfg turn then [] else [.outOfTurn]

/-- The Arbiter registers after SEND (42_arbiter.md R182, R185). -/
def claimTurn (cfg : Config) (now : Nat) (a : ArbRegs) : ArbRegs :=
  { a with dir := .rx, turn := slotTurn cfg.myAddr, last := truncTime cfg.timeWidth now, idle := false }

/-- `A.dir <- TX`, the only register SEND writes before the flush has completed (42_arbiter.md R182). -/
def driveTx (a : ArbRegs) : ArbRegs := { a with dir := .tx }

/-- The Arbiter registers when a byte arrives (42_arbiter.md R191). -/
def busActivity (cfg : Config) (now : Nat) (a : ArbRegs) : ArbRegs :=
  { a with last := truncTime cfg.timeWidth now, idle := false }

/-- `A.turn <- M.address` (42_arbiter.md R192). -/
def snapTurn (m : Message) (a : ArbRegs) : ArbRegs := { a with turn := slotTurn m.address }

/-- `(turn + k) mod 16`, Euclidean on the signed value (42_arbiter.md R197). -/
def turnPlus (turn : Turn) (k : Nat) : Turn := BitVec.ofInt 5 ((turn.toInt + (k : Int)) % (nSlots : Int))

/-- The Arbiter registers after `Advance(now, k)` (42_arbiter.md R197). -/
def advanceArb (cfg : Config) (now k : Nat) (a : ArbRegs) : ArbRegs :=
  { a with turn := turnPlus a.turn k, last := truncTime cfg.timeWidth now, idle := true }

/-- `Advance(now, k)` (42_arbiter.md R197): the turn moves, the Parser is PRESET, X10 is recorded (60 R226). -/
def advance (now k : Nat) (s : State) : State :=
  ((s.withArb (advanceArb s.cfg now k s.arb)).withParser (preset s.parser)).record [.violation .x10]

end Sys2Proof.Machine
end

