-- ==== Sys2Proof/Machine/Parser.lean ====
section
/-! DEFINITION. The Parser family: the state rules of spec/40_parser.md, PARSE and PRESET. -/

namespace Sys2Proof.Machine

/-- `StepInitial` (40_parser.md R110). -/
def stepInitial (b : Byte) (p : ParserRegs) : Ruled :=
  if b = colon then ruleOk (gotoState .idle p) else ruleOk p

/-- `StepIdle` (R111). -/
def stepIdle (b : Byte) (p : ParserRegs) : Ruled :=
  if b = letA then ruleOk (gotoState .address p)
  else if b = letV then ruleOk (gotoState .voltage (accReset p))
  else if b = letT then ruleOk (gotoState .temperature (accReset p))
  else if b = letB then ruleOk (gotoState .button (accReset p))
  else if b = sp then ruleOk p
  else if b = bar then ruleOk (gotoState .checksum (accReset p))
  else if isUpOther b then ruleOk (gotoState .skipping p)
  else gotoInvalid .x1 p

/-- `StepAddress` (R112). -/
def stepAddress (b : Byte) (p : ParserRegs) : Ruled :=
  if isHexLc b then ruleOk (gotoState .idle (addrSet b p)) else gotoInvalid .x2 p

/-- `StepVoltage` (R113, R116). -/
def stepVoltage (b : Byte) (p : ParserRegs) : Ruled :=
  if isDec b then decDigit b p
  else if b = sp ∨ b = bar then decTerminator commitVolt b p
  else gotoInvalid .x5 p

/-- `StepTemperature` (R117). -/
def stepTemperature (b : Byte) (p : ParserRegs) : Ruled :=
  if b = minus then tempMinus p
  else if isDec b then decDigit b p
  else if b = sp ∨ b = bar then decTerminator commitTemp b p
  else gotoInvalid .x5 p

/-- `StepButton` (R120). -/
def stepButton (b : Byte) (p : ParserRegs) : Ruled :=
  if isBtn b then ruleOk (gotoState .idle (buttonSet b p)) else gotoInvalid .x6 p

/-- `StepSkipping` (R122). -/
def stepSkipping (b : Byte) (p : ParserRegs) : Ruled :=
  if b = sp then ruleOk (gotoState .idle p)
  else if b = bar then ruleOk (gotoState .checksum (accReset p))
  else ruleOk p

/-- `StepChecksum` (R123, R127). -/
def stepChecksum (policy : ChecksumPolicy) (b : Byte) (p : ParserRegs) : Ruled :=
  if isHexLc b then ruleOk (hexDigit b p)
  else if b = sp ∨ b = cr then ruleOk p
  else if b = nl then checksumEnd policy p
  else gotoInvalid .x7 p

/-- `StepInvalid` (R129). -/
def stepInvalid (p : ParserRegs) : Ruled := ruleOk p

/-- The one state rule that runs (R101). -/
def stateRule (cfg : Config) (s0 : PState) (b : Byte) (p : ParserRegs) : Ruled :=
  match s0 with
  | .initial => stepInitial b p
  | .idle => stepIdle b p
  | .address => stepAddress b p
  | .voltage => stepVoltage b p
  | .temperature => stepTemperature b p
  | .button => stepButton b p
  | .skipping => stepSkipping b p
  | .checksum => stepChecksum cfg.policy b p
  | .invalid => stepInvalid p

/-- `P.crc` after the fold of one byte, the first step of PARSE (R101). -/
def foldByte (cfg : Config) (b : Byte) (p : ParserRegs) : ParserRegs :=
  { p with crc := crcFold cfg p.state b p.crc }

/-- The registers after PARSE, and the violation (R101): the fold, then the rule of the state before the byte. -/
def parseRegs (cfg : Config) (b : Byte) (p : ParserRegs) : Ruled := stateRule cfg p.state b (foldByte cfg b p)

/-- PARSE on the machine (R101): the Parser moves, the emission test gives `msg`, a violation is recorded. -/
def parseByte (b : Byte) (s : State) : State :=
  let r := parseRegs s.cfg b s.parser
  ((s.withParser r.1).withMsg (emitTest r.1)).record (violations r.2)

/-- PARSE (R100, R101). -/
def execParse (b : Byte) (s : State) : Host.Outcome State Fault Refusal := .next (parseByte b s)

/-- PRESET (R140): it leaves the Arbiter registers unchanged. -/
def execPreset (s : State) : Host.Outcome State Fault Refusal := .next (s.withParser (preset s.parser))

end Sys2Proof.Machine
end

