-- ==== Sys2Proof/Machine/Arbiter.lean ====
section
/-! DEFINITION. The Arbiter family: NOP, CAN_SEND, SEND, RECV (spec/42_arbiter.md), and the reserved op codes
(spec/30_encoding.md R93). -/

namespace Sys2Proof.Machine

/-- NOP (42_arbiter.md R205): "the next state is the current state". -/
def execNop (s : State) : Host.Outcome State Fault Refusal := .next s

/-- CAN_SEND (42_arbiter.md R180): it writes its result and no register. -/
def execCanSend (s : State) : Host.Outcome State Fault Refusal := .next (s.withCs (canSend s.cfg s.arb.turn))

/-- SEND when the transport completes (42_arbiter.md R182 to R188): unchecked, unescaped, no Parser register. -/
def sendFrame (s : State) : State :=
  ((s.transmit (sendActions s.port.payload)).withArb (claimTurn s.cfg s.port.now s.arb)).record
    (sendGhost s.cfg s.arb.turn)

/-- SEND when the transport completes `k` byte writes and nothing after them: "SEND never returns, and the direction
stays TX" (70_reset_and_hazards.md R267); the turn is not claimed, because the flush never completes (42_arbiter.md
R185). -/
def hangInSend (k : Nat) (s : State) : State :=
  (((s.transmit (stalledActions s.port.payload k)).withArb (driveTx s.arb)).record (sendGhost s.cfg s.arb.turn)).hang

/-- SEND (42_arbiter.md R182); it hangs where the transport stalls (60_exceptions.md R236; log entry 12). -/
def execSend (s : State) : Host.Outcome State Fault Refusal :=
  match s.port.txStall with
  | none => .next (sendFrame s)
  | some k => .next (hangInSend k s)

/-- `RecvEmit(M)` (42_arbiter.md R192): PRESET, then the turn snaps to the sender. -/
def recvEmit (m : Message) (s : State) : State :=
  (s.withParser (preset s.parser)).withArb (snapTurn m s.arb)

/-- `RecvByte(now, b)` (42_arbiter.md R191 to R193). -/
def recvByte (b : Byte) (s : State) : State :=
  let s1 := parseByte b (s.withArb (busActivity s.cfg s.port.now s.arb))
  match s1.msg with
  | some m => recvEmit m s1
  | none => s1

/-- RECV with a byte (42_arbiter.md R191). -/
def execRecvByte (b : Byte) (s : State) : Host.Outcome State Fault Refusal := .next (recvByte b s)

/-- `RecvIdle(now)` (42_arbiter.md R195 to R198): the silence rule; it returns none. -/
def recvIdle (s : State) : State :=
  let e := elapsed s.cfg.timeWidth s.port.now s.arb.last
  let g := grace s.cfg s.arb.idle
  (if silenceElapsed s.cfg e g then advance s.port.now ((e - g) / s.cfg.cycleUs) s else s).withMsg none

/-- RECV with no byte (42_arbiter.md R195). -/
def execRecvIdle (s : State) : Host.Outcome State Fault Refusal := .next (recvIdle s)

/-- The reserved op code 110: "A model refuses" it (30_encoding.md R93). -/
def execReserved110 (_s : State) : Host.Outcome State Fault Refusal := .refused (.reservedOp 6#3)

/-- The reserved op code 111: "A model refuses" it (30_encoding.md R93). -/
def execReserved111 (_s : State) : Host.Outcome State Fault Refusal := .refused (.reservedOp 7#3)

end Sys2Proof.Machine
end

