-- ==== Sys2Proof/Machine/Wire.lean ====
section
/-! DEFINITION. The wire-token family: each token is one byte the Parser consumes (spec/30_encoding.md section 2),
so its meaning is the Parser's step on that byte, whatever state the Parser is in (40_parser.md R101; log
entry 9). -/

namespace Sys2Proof.Machine

/-- FRAME_START, `:` (40_parser.md R110). -/
def execFrameStart (s : State) : Host.Outcome State Fault Refusal := .next (parseByte colon s)

/-- FIELD_A (40_parser.md R111). -/
def execFieldA (s : State) : Host.Outcome State Fault Refusal := .next (parseByte letA s)

/-- FIELD_V (40_parser.md R111). -/
def execFieldV (s : State) : Host.Outcome State Fault Refusal := .next (parseByte letV s)

/-- FIELD_T (40_parser.md R111). -/
def execFieldT (s : State) : Host.Outcome State Fault Refusal := .next (parseByte letT s)

/-- FIELD_B (40_parser.md R111). -/
def execFieldB (s : State) : Host.Outcome State Fault Refusal := .next (parseByte letB s)

/-- FIELD_UNKNOWN, its letter the byte itself (40_parser.md R111, 30_encoding.md R79). -/
def execFieldUnknown (letter : Byte) (s : State) : Host.Outcome State Fault Refusal := .next (parseByte letter s)

/-- SEPARATOR_SP (40_parser.md R111, R115, R122, R125). -/
def execSeparatorSp (s : State) : Host.Outcome State Fault Refusal := .next (parseByte sp s)

/-- CHECKSUM_START, the bar (40_parser.md R111, R115, R122). -/
def execChecksumStart (s : State) : Host.Outcome State Fault Refusal := .next (parseByte bar s)

/-- FRAME_END, newline (40_parser.md R126). -/
def execFrameEnd (s : State) : Host.Outcome State Fault Refusal := .next (parseByte nl s)

/-- CHECKSUM_CR (40_parser.md R125). -/
def execChecksumCr (s : State) : Host.Outcome State Fault Refusal := .next (parseByte cr s)

end Sys2Proof.Machine
end

