-- ==== Sys2Proof/Machine/Dispatch.lean ====
section
/-! DEFINITION. The dispatch: one arm per operation. -/

namespace Sys2Proof.Machine

def exec (i : Instr) (s : State) : Host.Outcome State Fault Refusal :=
  match i with
  | .nop => Sys2Proof.Machine.execNop s
  | .parse b => Sys2Proof.Machine.execParse b s
  | .preset => Sys2Proof.Machine.execPreset s
  | .canSend => Sys2Proof.Machine.execCanSend s
  | .send => Sys2Proof.Machine.execSend s
  | .recvByte b => Sys2Proof.Machine.execRecvByte b s
  | .recvIdle => Sys2Proof.Machine.execRecvIdle s
  | .reserved110 => Sys2Proof.Machine.execReserved110 s
  | .reserved111 => Sys2Proof.Machine.execReserved111 s
  | .frameStart => Sys2Proof.Machine.execFrameStart s
  | .fieldA => Sys2Proof.Machine.execFieldA s
  | .fieldV => Sys2Proof.Machine.execFieldV s
  | .fieldT => Sys2Proof.Machine.execFieldT s
  | .fieldB => Sys2Proof.Machine.execFieldB s
  | .fieldUnknown letter => Sys2Proof.Machine.execFieldUnknown letter s
  | .separatorSp => Sys2Proof.Machine.execSeparatorSp s
  | .checksumStart => Sys2Proof.Machine.execChecksumStart s
  | .frameEnd => Sys2Proof.Machine.execFrameEnd s
  | .checksumCr => Sys2Proof.Machine.execChecksumCr s

end Sys2Proof.Machine
end

