-- ==== Sys2Proof/WellFormed.lean ====
section
/-! DEFINITION. The check an operation must pass to have an encoding: the letter of an unknown field lies in
the class UPOTHER (spec/30_encoding.md R72, R79; opcode_table.json, row FIELD_UNKNOWN: "0x40 and
0x5B-0x5F excluded"). Every other operand takes every value of its width. -/

namespace Sys2Proof

/-- Well-formedness of an operation. -/
def Instr.wellFormed : Instr → Bool
  | .nop => true
  | .parse _ => true
  | .preset => true
  | .canSend => true
  | .send => true
  | .recvByte _ => true
  | .recvIdle => true
  | .reserved110 => true
  | .reserved111 => true
  | .frameStart => true
  | .fieldA => true
  | .fieldV => true
  | .fieldT => true
  | .fieldB => true
  | .fieldUnknown letter => Machine.isUpOther letter
  | .separatorSp => true
  | .checksumStart => true
  | .frameEnd => true
  | .checksumCr => true

end Sys2Proof
end

