-- ==== Sys2Proof/Decode.lean ====
section
/-! DEFINITION. The decoder of both encodings of spec/30_encoding.md, total and rejecting by name, and after it
the encoder. -/

namespace Sys2Proof

open Machine

/-- Why a decoding is rejected. -/
inductive DecodeReject where
  /-- A wire byte that no row of the opcode table stands for: a digit, a minus, or a byte no field starts
  with. It is operand data (30_encoding.md R74) and reaches the Parser by PARSE. -/
  | notAToken (b : Byte)
  deriving DecidableEq, Repr

/-- A command word (30_encoding.md R90, R91, R93). Bits [7:4] are never read, `v` only under op 101, and `b`
only by PARSE and by RECV with `v = 1`. -/
def decodeCommand (w : CmdWord) : Instr :=
  if opField w = 0#3 then .nop
  else if opField w = 1#3 then .parse (bField w)
  else if opField w = 2#3 then .preset
  else if opField w = 3#3 then .canSend
  else if opField w = 4#3 then .send
  else if opField w = 5#3 then (if vField w then .recvByte (bField w) else .recvIdle)
  else if opField w = 6#3 then .reserved110
  else .reserved111

/-- A wire token (30_encoding.md R70, R72, R75 to R80). -/
def decodeWire (b : Byte) : Except DecodeReject Instr :=
  if b = colon then .ok .frameStart
  else if b = letA then .ok .fieldA
  else if b = letV then .ok .fieldV
  else if b = letT then .ok .fieldT
  else if b = letB then .ok .fieldB
  else if b = sp then .ok .separatorSp
  else if b = bar then .ok .checksumStart
  else if b = nl then .ok .frameEnd
  else if b = cr then .ok .checksumCr
  else if isUpOther b then .ok (.fieldUnknown b)
  else .error (.notAToken b)

/-- The decoder of either encoding. -/
def decode : Encoded → Except DecodeReject Instr
  | .command w => .ok (decodeCommand w)
  | .wire b => decodeWire b

/-- The word of an operation, from the encoding tables of 30_encoding.md R90, R91 and R72; ignored bits are
written 0. -/
def encode : Instr → Encoded
  | .nop => .command (cmdWord 0#8 false 0#3)
  | .parse b => .command (cmdWord b false 1#3)
  | .preset => .command (cmdWord 0#8 false 2#3)
  | .canSend => .command (cmdWord 0#8 false 3#3)
  | .send => .command (cmdWord 0#8 false 4#3)
  | .recvByte b => .command (cmdWord b true 5#3)
  | .recvIdle => .command (cmdWord 0#8 false 5#3)
  | .reserved110 => .command (cmdWord 0#8 false 6#3)
  | .reserved111 => .command (cmdWord 0#8 false 7#3)
  | .frameStart => .wire colon
  | .fieldA => .wire letA
  | .fieldV => .wire letV
  | .fieldT => .wire letT
  | .fieldB => .wire letB
  | .fieldUnknown letter => .wire letter
  | .separatorSp => .wire sp
  | .checksumStart => .wire bar
  | .frameEnd => .wire nl
  | .checksumCr => .wire cr

/-- A word of the opcode table in the format its row names: CMD16 rows have 16 bits, WIRE8 rows 8. -/
def tableEncoded (nbits w : Nat) : Option Encoded :=
  if nbits = 16 then some (.command (BitVec.ofNat 16 w))
  else if nbits = 8 then some (.wire (BitVec.ofNat 8 w))
  else none

/-- What the decoder reads from a table word of `nbits` bits. -/
def decodeTableWord (nbits w : Nat) : Option Instr :=
  match tableEncoded nbits w with
  | none => none
  | some e =>
    match decode e with
    | .ok i => some i
    | .error _ => none

end Sys2Proof
end

