-- ==== Sys2Proof/Machine/Fetch.lean ====
section
/-! DEFINITION. How the next operation reaches the block: the oldest pending move of the environment is taken, its
side operands are latched at the port, and it is decoded (spec/00_scope.md R7, R18; 20_memory.md R60; log
entries 5 to 7 and 9). -/

namespace Sys2Proof.Machine

/-- The port with a call's side operands latched and no result yet (30_encoding.md R90). -/
def latchCall (s : State) (rest : List Event) (p : Port) : State :=
  { s with inbox := rest, port := p, msg := none, cs := none }

/-- The operation a wire byte stands for: its token, or PARSE of the byte where it is no token (operand data). -/
def wireInstr (b : Byte) : Instr :=
  match decodeWire b with
  | .ok i => i
  | .error (.notAToken x) => .parse x

/-- Power-on reset at time `t` while the machine exists (70_reset_and_hazards.md R251): every register to its
reset value; what was transmitted and recorded before stays on record (log entry 14); a hung SEND ends. -/
def powerOnReset (s : State) (rest : List Event) (t : Nat) : State :=
  { State.powerOn s.cfg t with inbox := rest, tx := s.tx, ghost := s.ghost }

/-- Power-on reset, the one move that gets the block out of a hung SEND (93 row 11). -/
def Event.isPowerOn : Event → Bool
  | .call _ _ _ _ => false
  | .wire _ => false
  | .powerOn _ => true

/-- The block hangs inside SEND, moves are pending and no reset is among them: no operation starts until SEND has
returned (20_memory.md R58), which it never does. -/
def blocked (s : State) : Bool := s.hung && !s.inbox.isEmpty && !s.inbox.any Event.isPowerOn

/-- The moves the environment can still make: while the block hangs inside SEND, none before the power-on reset of the
whole device (60_exceptions.md R236; log entry 12). -/
def admitted (s : State) : State :=
  { s with inbox := if s.hung then s.inbox.dropWhile (fun e => !e.isPowerOn) else s.inbox }

/-- The next operation and the state it runs in; none where the environment makes no move or resets the block. -/
def nextOperation (s : State) : Option (Instr × State) :=
  match s.inbox with
  | [] => none
  | .call word now payload stall :: rest =>
    some (decodeCommand word, latchCall s rest { now := now, payload := payload, txStall := stall })
  | .wire b :: rest => some (wireInstr b, latchCall s rest s.port)
  | .powerOn _ :: _ => none

/-- The state after a move that is no operation: with no pending move the block holds its state
(60_exceptions.md R239, 70_reset_and_hazards.md R251). -/
def withoutOperation (s : State) : State :=
  match s.inbox with
  | .powerOn t :: rest => powerOnReset s rest t
  | _ => s

/-- The table word placed as the next pending move, its side operands those latched at the port, with a
transport that completes and no SEND hung; unchanged for a width no format has. -/
def placeTableWord (s : State) (nbits w : Nat) : State :=
  match tableEncoded nbits w with
  | none => s
  | some (.command word) => { s with inbox := .call word s.port.now s.port.payload none :: s.inbox, hung := false }
  | some (.wire b) => { s with inbox := .wire b :: s.inbox, hung := false }

end Sys2Proof.Machine
end

