-- ==== Sys2Proof/Machine/Step.lean ====
section
/-! DEFINITION. One step of the machine: the oldest pending move of the environment (Machine/Fetch.lean). -/

namespace Sys2Proof.Machine

/-- One step: one atomic operation (00_scope.md R7), or a move that is no operation; stuck inside a hung SEND. -/
def step (s : State) : Host.Outcome State Fault Refusal :=
  if blocked s then .fault .transportStalled
  else
    match nextOperation (admitted s) with
    | some (i, s') => exec i s'
    | none => .next (withoutOperation (admitted s))

/-- The state in which the very next step runs the table word `w` of `nbits` bits. -/
def State.withFetchWord (s : State) (nbits w : Nat) : State := placeTableWord s nbits w

end Sys2Proof.Machine
end

