-- ==== Sys2Proof/Language.lean ====
section
/-! DEFINITION. The vocabulary of the statements about whole byte sequences, written from the spec and not from
the machine: the transition table of spec/40_parser.md R130, its accepted language (R131), and the sender's
grammar of spec/30_encoding.md R70. -/

namespace Sys2Proof.Machine

/-- PARSE over a byte sequence. -/
def parseAll (cfg : Config) : ParserRegs → List Byte → ParserRegs
  | p, [] => p
  | p, b :: bs => parseAll cfg (parseRegs cfg b p).1 bs

/-- What PARSE returns on each byte of a sequence. -/
def messages (cfg : Config) : ParserRegs → List Byte → List (Option Message)
  | _, [] => []
  | p, b :: bs => emitTest (parseRegs cfg b p).1 :: messages cfg (parseRegs cfg b p).1 bs

/-! The transition table (40_parser.md R130). -/

/-- The columns of the table. -/
inductive Column where
  | colon | sp | bar | nl | cr | minus | low | high | hexLetter | a | b | t | v | upOther | other
  deriving DecidableEq, Repr

/-- The column of a byte: "every byte value falls in exactly one column". -/
def column (x : Byte) : Column :=
  let n := x.toNat
  if n = 0x3A then .colon
  else if n = 0x20 then .sp
  else if n = 0x7C then .bar
  else if n = 0x0A then .nl
  else if n = 0x0D then .cr
  else if n = 0x2D then .minus
  else if 0x30 ≤ n ∧ n ≤ 0x35 then .low
  else if 0x36 ≤ n ∧ n ≤ 0x39 then .high
  else if 0x61 ≤ n ∧ n ≤ 0x66 then .hexLetter
  else if n = 0x41 then .a
  else if n = 0x42 then .b
  else if n = 0x54 then .t
  else if n = 0x56 then .v
  else if 0x43 ≤ n ∧ n ≤ 0x5A then .upOther
  else .other

/-- The entries of the table's cells. -/
inductive Cell where
  | same
  | move (q : PState)
  | moveReset (q : PState)
  | violate (x : Violation)
  | address
  | button
  | digit
  | commit (q : PState)
  | negate
  | hex
  | close
  deriving DecidableEq, Repr

/-- Row Idle. -/
def idleCell : Column → Cell
  | .sp => .same
  | .bar => .moveReset .checksum
  | .a => .move .address
  | .b => .moveReset .button
  | .t => .moveReset .temperature
  | .v => .moveReset .voltage
  | .upOther => .move .skipping
  | .colon => .violate .x1
  | .nl => .violate .x1
  | .cr => .violate .x1
  | .minus => .violate .x1
  | .low => .violate .x1
  | .high => .violate .x1
  | .hexLetter => .violate .x1
  | .other => .violate .x1

/-- Row Checksum. -/
def checksumCell : Column → Cell
  | .sp => .same
  | .cr => .same
  | .nl => .close
  | .low => .hex
  | .high => .hex
  | .hexLetter => .hex
  | .colon => .violate .x7
  | .bar => .violate .x7
  | .minus => .violate .x7
  | .a => .violate .x7
  | .b => .violate .x7
  | .t => .violate .x7
  | .v => .violate .x7
  | .upOther => .violate .x7
  | .other => .violate .x7

/-- The table: a cell for each state and column. -/
def tableCell (q : PState) (c : Column) : Cell :=
  match q with
  | .initial => if c = .colon then .move .idle else .same
  | .idle => idleCell c
  | .address => if c = .low ∨ c = .high ∨ c = .hexLetter then .address else .violate .x2
  | .voltage =>
    if c = .sp then .commit .idle else if c = .bar then .commit .checksum
    else if c = .low ∨ c = .high then .digit else .violate .x5
  | .temperature =>
    if c = .sp then .commit .idle else if c = .bar then .commit .checksum
    else if c = .low ∨ c = .high then .digit else if c = .minus then .negate else .violate .x5
  | .button => if c = .low then .button else .violate .x6
  | .skipping => if c = .sp then .move .idle else if c = .bar then .moveReset .checksum else .same
  | .checksum => checksumCell c
  | .invalid => .same

/-- The registers with an entry to Invalid. -/
def violated (x : Violation) (p : ParserRegs) : ParserRegs × Option Violation := ({ p with state := .invalid }, some x)

/-- The action of a cell on byte `x` in the registers after the fold, with its condition. -/
def cellAction (cfg : Config) (x : Byte) (p : ParserRegs) : Cell → ParserRegs × Option Violation
  | .same => (p, none)
  | .move q => ({ p with state := q }, none)
  | .moveReset q => ({ p with state := q, acc := 0#32, neg := false, cnt := 0#4 }, none)
  | .violate v => violated v p
  | .address => ({ p with state := .idle, addr := BitVec.ofNat 4 (hexval x), addrV := true }, none)
  | .button => ({ p with state := .idle, btn := BitVec.ofNat 3 (x.toNat - 0x30), btnV := true }, none)
  | .digit =>
    if p.cnt = 4#4 then violated .x3 p
    else ({ p with acc := BitVec.ofNat 32 (p.acc.toNat * 10 + (x.toNat - 0x30)),
                   cnt := if p.cnt = 15#4 then 15#4 else p.cnt + 1#4 }, none)
  | .commit q =>
    if p.cnt = 0#4 then violated .x4 p
    else if p.state = .voltage then
      ({ p with state := q, volt := BitVec.ofNat 14 p.acc.toNat, voltV := true,
                acc := 0#32, neg := false, cnt := 0#4 }, none)
    else
      ({ p with state := q, tempV := true, acc := 0#32, neg := false, cnt := 0#4,
                temp := if p.neg then -(BitVec.ofNat 15 p.acc.toNat) else BitVec.ofNat 15 p.acc.toNat }, none)
  | .negate => if p.cnt = 0#4 ∧ p.neg = false then ({ p with neg := true }, none) else violated .x5 p
  | .hex =>
    ({ p with acc := (p.acc <<< 4) ||| BitVec.ofNat 32 (hexval x),
              cnt := if p.cnt = 15#4 then 15#4 else p.cnt + 1#4 }, none)
  | .close =>
    if p.cnt ≠ 8#4 then violated .x8 p
    else if cfg.policy = .acceptRegardless ∨ p.acc = p.crc ^^^ 0xFFFFFFFF#32 then ({ p with state := .initial }, none)
    else violated .x9 p

/-! The accepted language (40_parser.md R131). -/

/-- A field that a space or the bar ends: Voltage, Temperature or an unknown field, without its terminator. -/
inductive DelimitedField : List Byte → Prop where
  | voltage (ds : List Byte) :
    (∀ d ∈ ds, isDec d = true) → 1 ≤ ds.length → ds.length ≤ 4 → DelimitedField (letV :: ds)
  | temperature (ds : List Byte) :
    (∀ d ∈ ds, isDec d = true) → 1 ≤ ds.length → ds.length ≤ 4 → DelimitedField (letT :: ds)
  | negative (ds : List Byte) :
    (∀ d ∈ ds, isDec d = true) → 1 ≤ ds.length → ds.length ≤ 4 → DelimitedField (letT :: minus :: ds)
  | unknown (letter : Byte) (rest : List Byte) :
    isUpOther letter = true → (∀ x ∈ rest, x ≠ sp ∧ x ≠ bar) → DelimitedField (letter :: rest)

/-- The items between the frame-start byte and the bar; the flag says whether an address item occurs. -/
inductive Items : List Byte → Bool → Prop where
  | nil : Items [] false
  | space (r : List Byte) (a : Bool) : Items r a → Items (sp :: r) a
  | address (h : Byte) (r : List Byte) (a : Bool) : isHexLc h = true → Items r a → Items (letA :: h :: r) true
  | button (d : Byte) (r : List Byte) (a : Bool) : isBtn d = true → Items r a → Items (letB :: d :: r) a
  | delimited (f r : List Byte) (a : Bool) : DelimitedField f → Items r a → Items (f ++ sp :: r) a
  | last (f : List Byte) : DelimitedField f → Items f false

/-- The number the hex digits of a checksum field spell, first digit most significant. -/
def hexNumber (bs : List Byte) : Word32 := (bs.filter isHexLc).foldl hexShift 0#32

/-- The strings of R131: junk, the frame-start byte, items with an address, the bar, exactly eight hex digits among
spaces and carriage returns, newline; under REJECT_ON_MISMATCH the digits spell the CRC of the frame. -/
def Accepted (cfg : Config) (w : List Byte) : Prop :=
  ∃ junk items digits : List Byte,
    w = junk ++ colon :: items ++ bar :: digits ++ [nl] ∧ colon ∉ junk ∧ Items items true ∧
    (∀ x ∈ digits, isHexLc x = true ∨ x = sp ∨ x = cr) ∧ (digits.filter isHexLc).length = 8 ∧
    (cfg.policy = .rejectOnMismatch → hexNumber digits = crc32 (colon :: items ++ [bar]))

/-- The last byte of `u` closes a frame: it moves the Parser from Checksum to Initial. -/
def ClosesFrame (cfg : Config) (p : ParserRegs) (u : List Byte) : Prop :=
  ∃ u' b, u = u' ++ [b] ∧ (parseAll cfg p u').state = .checksum ∧ (parseAll cfg p u).state = .initial

/-! The sender's grammar (30_encoding.md R70). -/

/-- A field a conforming sender writes. -/
inductive SentField where
  | address (h : Slot)
  | voltage (ds : List (Fin 10))
  | temperature (neg : Bool) (ds : List (Fin 10))
  | button (d : Fin 6)
  | unknown (letter : Byte) (rest : List Byte)
  deriving DecidableEq, Repr

/-- The characters of decimal digits. -/
def digitChars (ds : List (Fin 10)) : List Byte := ds.map fun d => BitVec.ofNat 8 (0x30 + d.val)

/-- The number decimal digits spell. -/
def decimal (ds : List (Fin 10)) : Nat := ds.foldl (fun n d => n * 10 + d.val) 0

/-- The bytes of a field. -/
def SentField.bytes : SentField → List Byte
  | .address h => [letA, hexchar h.toNat]
  | .voltage ds => letV :: digitChars ds
  | .temperature neg ds => letT :: ((if neg then [minus] else []) ++ digitChars ds)
  | .button d => [letB, BitVec.ofNat 8 (0x30 + d.val)]
  | .unknown letter rest => letter :: rest

/-- The conditions of the grammar on a field: one to four digits, an unknown letter, a body without terminators. -/
def SentField.sendable : SentField → Bool
  | .address _ => true
  | .voltage ds => decide (1 ≤ ds.length ∧ ds.length ≤ 4)
  | .temperature _ ds => decide (1 ≤ ds.length ∧ ds.length ≤ 4)
  | .button _ => true
  | .unknown letter rest => isUpOther letter && rest.all fun x => x != sp && x != bar

/-- The frame body: the fields joined by single spaces. -/
def sentBody : List SentField → List Byte
  | [] => []
  | [f] => f.bytes
  | f :: g :: fs => f.bytes ++ sp :: sentBody (g :: fs)

/-- The addresses, voltages, temperatures and buttons a sender wrote, in order. -/
def sentAddresses (fs : List SentField) : List Slot := fs.filterMap fun f => match f with
  | .address h => some h
  | _ => none

def sentVoltages (fs : List SentField) : List Nat := fs.filterMap fun f => match f with
  | .voltage ds => some (decimal ds)
  | _ => none

def sentTemperatures (fs : List SentField) : List Int := fs.filterMap fun f => match f with
  | .temperature neg ds => some (if neg then -(decimal ds : Int) else (decimal ds : Int))
  | _ => none

def sentButtons (fs : List SentField) : List Nat := fs.filterMap fun f => match f with
  | .button d => some d.val
  | _ => none

end Sys2Proof.Machine
end

