-- ==== Sys2Proof/Safety.lean ====
section
/-! DEFINITION. What counts as a good state and a safe run, in the terms the statements use: the invariants of
spec/10_state.md R44, the legal Messages of R38, the moves of the Arbiter configuration (30_encoding.md R91),
and the host's duty to send in turn only (60_exceptions.md R240). -/

namespace Sys2Proof.Machine

/-- 10_state.md R44 items 1 and 2: the digit count and the accumulator inside a decimal field. -/
abbrev decimalInv (p : ParserRegs) : Prop :=
  p.state = .voltage ∨ p.state = .temperature → p.cnt.toNat ≤ 4 ∧ p.acc.toNat < 10 ^ p.cnt.toNat

/-- R44 items 1, 3 and 4: where the sign flag may be set. -/
abbrev signInv (p : ParserRegs) : Prop := p.neg = true → p.state = .temperature ∨ p.state = .invalid

/-- R44 item 5: the committed fields are legal. -/
abbrev fieldInv (p : ParserRegs) : Prop :=
  (p.voltV = true → p.volt.toNat ≤ 9999) ∧
  (p.tempV = true → -9999 ≤ p.temp.toInt ∧ p.temp.toInt ≤ 9999) ∧
  (p.btnV = true → p.btn.toNat ≤ 5)

/-- An absent field has value bits 0 (10_state.md R28 to R31, as PRESET leaves them). -/
abbrev absentInv (p : ParserRegs) : Prop :=
  (p.addrV = false → p.addr = 0#4) ∧ (p.voltV = false → p.volt = 0#14) ∧
  (p.tempV = false → p.temp = 0#15) ∧ (p.btnV = false → p.btn = 0#3)

/-- The Parser's invariant. -/
abbrev ParserRegs.inv (p : ParserRegs) : Prop := decimalInv p ∧ signInv p ∧ fieldInv p ∧ absentInv p

/-- The Arbiter's invariant: R44 item 6, and the width of `A.last` (R34). -/
abbrev ArbRegs.inv (cfg : Config) (a : ArbRegs) : Prop :=
  -1 ≤ a.turn.toInt ∧ a.turn.toInt ≤ 15 ∧ a.last < 2 ^ cfg.timeWidth

/-- R44 item 7: after every operation the direction is RX; a hung SEND has not ended, and holds it at TX
(70_reset_and_hazards.md R267). -/
abbrev dirInv (s : State) : Prop := s.arb.dir = if s.hung then .tx else .rx

/-- The invariant of the machine: R44 items 1 to 7 under a legal configuration. -/
abbrev State.inv (s : State) : Prop := s.cfg.valid ∧ s.parser.inv ∧ s.arb.inv s.cfg ∧ dirInv s

/-- R44 item 8, of the Arbiter configuration: between operations the Parser is never in Initial with an address
recorded. -/
abbrev State.arbiterInv (s : State) : Prop := s.inv ∧ (s.parser.state = .initial → s.parser.addrV = false)

/-- The operations of a device whose Arbiter owns the Parser (30_encoding.md R91). -/
def arbiterOp : Instr → Bool
  | .nop => true
  | .canSend => true
  | .send => true
  | .recvByte _ => true
  | .recvIdle => true
  | .parse _ => false
  | .preset => false
  | .reserved110 => false
  | .reserved111 => false
  | .frameStart => false
  | .fieldA => false
  | .fieldV => false
  | .fieldT => false
  | .fieldB => false
  | .fieldUnknown _ => false
  | .separatorSp => false
  | .checksumStart => false
  | .frameEnd => false
  | .checksumCr => false

/-- A move of the environment in the Arbiter configuration. -/
def Event.arbiterMove : Event → Bool
  | .call word _ _ _ => arbiterOp (decodeCommand word)
  | .wire _ => false
  | .powerOn _ => true

/-- The legal values of a Message (10_state.md R38). -/
abbrev Message.legal (m : Message) : Prop :=
  (∀ v, m.voltage = some v → v.toNat ≤ 9999) ∧
  (∀ t, m.temperature = some t → -9999 ≤ t.toInt ∧ t.toInt ≤ 9999) ∧
  (∀ b, m.button = some b → b.toNat ≤ 5)

/-- The state without its ghost history. -/
def State.eraseGhost (s : State) : State := { s with ghost := [] }

/-- The outcome with a function applied to the next state. -/
def mapNext (f : State → State) : Host.Outcome State Fault Refusal → Host.Outcome State Fault Refusal
  | .next s => .next (f s)
  | .fault r => .fault r
  | .refused r => .refused r

/-- `n` steps from `s` end in a next state, and the caller never sent out of turn on the way
(60_exceptions.md R240, 70_reset_and_hazards.md R261). -/
def safeRun (n : Nat) (s : State) : Prop :=
  ∃ t : State, Host.Core.run Sys2Proof.core n s = .next t ∧ GhostEvent.outOfTurn ∉ t.ghost

end Sys2Proof.Machine
end

