-- ==== Sys2Proof/Certificates/Slice0/Obligations.lean ====
section
/-! DEFINITION. The statements for the provers. Each docstring names the rule of spec/ it comes from. -/

open Sys2Proof Sys2Proof.Machine

/-! ## Encoding -/

/-- 30_encoding.md section 7 and 95_test_vectors.md section 5: words written out from the encoding tables decode to the
operation they stand for. -/
def Obligations.WordsOfTheTablesDecode : Prop :=
  decodeCommand 0x0000#16 = .nop ∧ decodeCommand 0x00F0#16 = .nop ∧ decodeCommand 0x3A01#16 = .parse 0x3A#8 ∧
  decodeCommand 0x0002#16 = .preset ∧ decodeCommand 0x0003#16 = .canSend ∧ decodeCommand 0x0004#16 = .send ∧
  decodeCommand 0x3A0D#16 = .recvByte 0x3A#8 ∧ decodeCommand 0x0005#16 = .recvIdle ∧
  decodeCommand 0x7F05#16 = .recvIdle ∧ decodeCommand 0x000E#16 = .reserved110 ∧
  decodeCommand 0x000F#16 = .reserved111 ∧ decodeWire 0x3A#8 = .ok .frameStart ∧ decodeWire 0x41#8 = .ok .fieldA ∧
  decodeWire 0x43#8 = .ok (.fieldUnknown 0x43#8) ∧ decodeWire 0x5A#8 = .ok (.fieldUnknown 0x5A#8) ∧
  decodeWire 0x7C#8 = .ok .checksumStart ∧ decodeWire 0x40#8 = .error (.notAToken 0x40#8) ∧
  decodeWire 0x5B#8 = .error (.notAToken 0x5B#8) ∧ decodeWire 0x35#8 = .error (.notAToken 0x35#8)

/-- 30_encoding.md sections 1, 2 and 7: decoding the encoding of any well-formed operation gives it back, with every
operand. -/
def Obligations.DecodeOfEncodeIsTheOperation : Prop :=
  ∀ i : Instr, i.wellFormed = true → decode (encode i) = .ok i

/-- The other direction: whatever the decoder accepts is well-formed, a wire byte encodes back to itself, and a command
word encodes back to a word with the same operation code that decodes to the same operation. -/
def Obligations.DecodedOperationsEncodeBack : Prop :=
  (∀ (b : Byte) (i : Instr), decodeWire b = .ok i → i.wellFormed = true ∧ encode i = .wire b) ∧
  (∀ w : CmdWord, (decodeCommand w).wellFormed = true ∧
    ∃ w', encode (decodeCommand w) = .command w' ∧ opField w' = opField w ∧ decodeCommand w' = decodeCommand w)

/-- 30_encoding.md section 7 and 93 row 17: the ignored bits of a command word change nothing: two words that agree on
`op`, on `v` under op 101, and on `b` under PARSE and under RECV with `v = 1`, make the same step. -/
def Obligations.IgnoredBitsChangeNoStep : Prop :=
  ∀ (s : State) (w w' : CmdWord) (now : Nat) (payload : List Byte) (stall : Option Nat) (rest : List Event),
    w.extractLsb' 0 3 = w'.extractLsb' 0 3 →
    (w.extractLsb' 0 3 = 5#3 → w.getLsbD 3 = w'.getLsbD 3) →
    (w.extractLsb' 0 3 = 1#3 ∨ (w.extractLsb' 0 3 = 5#3 ∧ w.getLsbD 3 = true) →
      w.extractLsb' 8 8 = w'.extractLsb' 8 8) →
    step { s with inbox := .call w now payload stall :: rest } =
      step { s with inbox := .call w' now payload stall :: rest }

/-! ## The step and reset -/

/-- Outside a hung SEND a step runs the decoded operation: with a call at the head of the inbox, the step is `exec` of the operation its word
decodes to, in the state where the call is taken, its side operands are latched and no result stands yet; with a wire
byte it is `exec` of the token, or of PARSE of the byte where it is no token (model's choice, log entries 5 to 7, 9; a hung SEND runs none: StalledTransportHangsSend). -/
def Obligations.StepRunsTheDecodedOperation : Prop :=
  (∀ (s : State) (w : CmdWord) (now : Nat) (payload : List Byte) (stall : Option Nat) (rest : List Event),
    s.hung = false → s.inbox = .call w now payload stall :: rest →
    step s = exec (decodeCommand w)
      { s with inbox := rest, port := ⟨now, payload, stall⟩, msg := none, cs := none }) ∧
  (∀ (s : State) (b : Byte) (i : Instr) (rest : List Event),
    s.hung = false → s.inbox = .wire b :: rest → decodeWire b = .ok i →
    step s = exec i { s with inbox := rest, msg := none, cs := none }) ∧
  (∀ (s : State) (b x : Byte) (rest : List Event),
    s.hung = false → s.inbox = .wire b :: rest → decodeWire b = .error (.notAToken x) →
    step s = exec (.parse b) { s with inbox := rest, msg := none, cs := none })

/-- With no pending move the block holds its state (60_exceptions.md, "between operations it holds its state"). -/
def Obligations.NoPendingMoveHoldsTheState : Prop :=
  ∀ s : State, s.inbox = [] → step s = .next s

/-- `withFetchWord` makes the very next step run the word: for every well-formed operation and the word its encoding
gives, the step is `exec` of that operation in the state with the results cleared, a transport that completes and no SEND hung. -/
def Obligations.PlacedWordRunsNext : Prop :=
  (∀ (s : State) (i : Instr) (w : CmdWord), i.wellFormed = true → encode i = .command w →
    step (s.withFetchWord 16 w.toNat) =
      exec i { s with hung := false, port := ⟨s.port.now, s.port.payload, none⟩, msg := none, cs := none }) ∧
  (∀ (s : State) (i : Instr) (b : Byte), i.wellFormed = true → encode i = .wire b →
    step (s.withFetchWord 8 b.toNat) = exec i { s with hung := false, msg := none, cs := none })

/-- 70_reset_and_hazards.md section 1: power-on reset at time `t` sets every register to the value of the table and leaves the
configuration, whatever the state before, a hung SEND included. -/
def Obligations.PowerOnSetsEveryRegister : Prop :=
  ∀ (s : State) (t : Nat) (rest : List Event), s.inbox = .powerOn t :: rest →
    ∃ s', step s = .next s' ∧ s'.cfg = s.cfg ∧ s'.inbox = rest ∧
      s'.parser.state = .initial ∧ s'.parser.acc = 0#32 ∧ s'.parser.neg = false ∧ s'.parser.cnt = 0#4 ∧
      s'.parser.crc = 0x00000000#32 ∧
      s'.parser.addrV = false ∧ s'.parser.voltV = false ∧ s'.parser.tempV = false ∧ s'.parser.btnV = false ∧
      s'.parser.addr = 0#4 ∧ s'.parser.volt = 0#14 ∧ s'.parser.temp = 0#15 ∧ s'.parser.btn = 0#3 ∧
      s'.arb.turn.toInt = -1 ∧ s'.arb.last = t % 2 ^ s.cfg.timeWidth ∧ s'.arb.idle = false ∧ s'.arb.dir = .rx ∧ s'.hung = false ∧
      canSend s'.cfg s'.arb.turn = false

/-- The state right after reset, at every time and under every legal configuration, meets the machine's invariant and
that of the Arbiter configuration; so does `State.reset`, whose configuration and time are the model's choice (log
entries 2 and 3). -/
def Obligations.PowerOnMeetsTheInvariants : Prop :=
  (∀ (cfg : Config) (t : Nat), cfg.valid → (State.powerOn cfg t).inv ∧ (State.powerOn cfg t).arbiterInv) ∧
  State.reset.inv ∧ State.reset.arbiterInv

/-! ## PARSE, state by state -/

/-- 40_parser.md R110 with the fold of 41_crc.md R162: in Initial only `:` moves the Parser, and only `:` is folded (over 0
where the CRC restarts); every other byte leaves it, and emits again if an address is still recorded. -/
def Obligations.InitialWaitsForTheFrameStart : Prop :=
  ∀ (s : State) (b : Byte), s.parser.state = .initial →
    exec (.parse b) s = .next { s with
      parser := if b = 0x3A#8 then { s.parser with
          state := .idle, crc := crcUpdate (if s.cfg.crcRestart then 0#32 else s.parser.crc) 0x3A#8 } else s.parser
      msg := if b ≠ 0x3A#8 ∧ s.parser.addrV = true then some
          { address := s.parser.addr
            voltage := if s.parser.voltV then some s.parser.volt else none
            temperature := if s.parser.tempV then some s.parser.temp else none
            button := if s.parser.btnV then some s.parser.btn else none } else none }

/-- 40_parser.md R111: in Idle the byte selects a field; a byte outside the listed classes is X1. The byte is folded. -/
def Obligations.IdleSelectsTheField : Prop :=
  ∀ (s : State) (b : Byte), s.parser.state = .idle →
    ∃ (q : PState) (reset : Bool) (xs : List Violation),
      exec (.parse b) s = .next { s with
        parser := { s.parser with
          state := q, crc := crcUpdate s.parser.crc b
          acc := if reset then 0#32 else s.parser.acc
          neg := if reset then false else s.parser.neg
          cnt := if reset then 0#4 else s.parser.cnt }
        msg := none, ghost := s.ghost ++ xs.map .violation } ∧
      (b = 0x41#8 → q = .address ∧ reset = false ∧ xs = []) ∧
      (b = 0x56#8 → q = .voltage ∧ reset = true ∧ xs = []) ∧
      (b = 0x54#8 → q = .temperature ∧ reset = true ∧ xs = []) ∧
      (b = 0x42#8 → q = .button ∧ reset = true ∧ xs = []) ∧
      (b = 0x20#8 → q = .idle ∧ reset = false ∧ xs = []) ∧
      (b = 0x7C#8 → q = .checksum ∧ reset = true ∧ xs = []) ∧
      (0x43 ≤ b.toNat ∧ b.toNat ≤ 0x5A ∧ b ≠ 0x54#8 ∧ b ≠ 0x56#8 → q = .skipping ∧ reset = false ∧ xs = []) ∧
      (¬ (0x41 ≤ b.toNat ∧ b.toNat ≤ 0x5A) ∧ b ≠ 0x20#8 ∧ b ≠ 0x7C#8 → q = .invalid ∧ reset = false ∧ xs = [.x1])

/-- 40_parser.md R112: in Address exactly one lowercase hex digit sets the address; anything else is X2. -/
def Obligations.AddressTakesOneHexDigit : Prop :=
  ∀ (s : State) (b : Byte), s.parser.state = .address →
    exec (.parse b) s = .next (
      if 0x30 ≤ b.toNat ∧ b.toNat ≤ 0x39 then
        { s with msg := none, parser := { s.parser with state := .idle, crc := crcUpdate s.parser.crc b,
                                                        addr := BitVec.ofNat 4 (b.toNat - 0x30), addrV := true } }
      else if 0x61 ≤ b.toNat ∧ b.toNat ≤ 0x66 then
        { s with msg := none, parser := { s.parser with state := .idle, crc := crcUpdate s.parser.crc b,
                                                        addr := BitVec.ofNat 4 (b.toNat - 0x61 + 10), addrV := true } }
      else
        { s with msg := none, parser := { s.parser with state := .invalid, crc := crcUpdate s.parser.crc b },
                 ghost := s.ghost ++ [.violation .x2] })

/-- 40_parser.md section 2, Voltage: a digit shifts in unless four are there (X3); a space or the bar commits unless none
is there (X4); any other byte is X5. For an accumulator above 9999, which no run reaches, the wrap of the digit at 32
bits and the cut to 14 bits at the commit are the model's choice (log entry 20). -/
def Obligations.VoltageCollectsDigits : Prop :=
  ∀ (s : State) (b : Byte), s.parser.state = .voltage → s.parser.cnt.toNat ≤ 4 →
    exec (.parse b) s = .next (
      if 0x30 ≤ b.toNat ∧ b.toNat ≤ 0x39 ∧ s.parser.cnt ≠ 4#4 then
        { s with msg := none, parser := { s.parser with
            crc := crcUpdate s.parser.crc b, cnt := s.parser.cnt + 1#4,
            acc := BitVec.ofNat 32 (s.parser.acc.toNat * 10 + (b.toNat - 0x30)) } }
      else if (b = 0x20#8 ∨ b = 0x7C#8) ∧ s.parser.cnt ≠ 0#4 then
        { s with msg := none, parser := { s.parser with
            state := if b = 0x20#8 then .idle else .checksum, crc := crcUpdate s.parser.crc b,
            volt := BitVec.ofNat 14 s.parser.acc.toNat, voltV := true, acc := 0#32, neg := false, cnt := 0#4 } }
      else
        { s with msg := none, parser := { s.parser with state := .invalid, crc := crcUpdate s.parser.crc b },
                 ghost := s.ghost ++ [.violation (
                   if 0x30 ≤ b.toNat ∧ b.toNat ≤ 0x39 then .x3
                   else if b = 0x20#8 ∨ b = 0x7C#8 then .x4 else .x5)] })

/-- 40_parser.md R117 to R119 in Temperature: as Voltage, with one leading `-` before any digit, and the value committed
negated where the sign flag is set; `-0` is 0. -/
def Obligations.TemperatureCollectsASignedNumber : Prop :=
  ∀ (s : State) (b : Byte), s.parser.state = .temperature → s.parser.cnt.toNat ≤ 4 → s.parser.acc.toNat ≤ 9999 →
    ∃ t, exec (.parse b) s = .next t ∧ t.msg = none ∧
      if b = 0x2D#8 ∧ s.parser.cnt = 0#4 ∧ s.parser.neg = false then
        t = { s with msg := none, parser := { s.parser with crc := crcUpdate s.parser.crc b, neg := true } }
      else if 0x30 ≤ b.toNat ∧ b.toNat ≤ 0x39 ∧ s.parser.cnt ≠ 4#4 then
        t = { s with msg := none, parser := { s.parser with
            crc := crcUpdate s.parser.crc b, cnt := s.parser.cnt + 1#4,
            acc := BitVec.ofNat 32 (s.parser.acc.toNat * 10 + (b.toNat - 0x30)) } }
      else if (b = 0x20#8 ∨ b = 0x7C#8) ∧ s.parser.cnt ≠ 0#4 then
        t = { s with msg := none, parser := { s.parser with
            state := if b = 0x20#8 then .idle else .checksum, crc := crcUpdate s.parser.crc b,
            temp := t.parser.temp, tempV := true, acc := 0#32, neg := false, cnt := 0#4 } } ∧
        t.parser.temp.toInt = if s.parser.neg then -(s.parser.acc.toNat : Int) else (s.parser.acc.toNat : Int)
      else
        t = { s with msg := none, parser := { s.parser with state := .invalid, crc := crcUpdate s.parser.crc b },
                     ghost := s.ghost ++ [.violation (
                       if 0x30 ≤ b.toNat ∧ b.toNat ≤ 0x39 then .x3
                       else if b = 0x20#8 ∨ b = 0x7C#8 then .x4 else .x5)] }

/-- 40_parser.md R120, R121: in Button exactly one digit `0` to `5` sets the button; anything else is X6. -/
def Obligations.ButtonTakesOneDigit : Prop :=
  ∀ (s : State) (b : Byte), s.parser.state = .button →
    exec (.parse b) s = .next (
      if 0x30 ≤ b.toNat ∧ b.toNat ≤ 0x35 then
        { s with msg := none, parser := { s.parser with state := .idle, crc := crcUpdate s.parser.crc b,
                                                        btn := BitVec.ofNat 3 (b.toNat - 0x30), btnV := true } }
      else
        { s with msg := none, parser := { s.parser with state := .invalid, crc := crcUpdate s.parser.crc b },
                 ghost := s.ghost ++ [.violation .x6] })

/-- 40_parser.md R122: Skipping ends at a space or at the bar; every other byte is ignored. All are folded. -/
def Obligations.SkippingEndsAtATerminator : Prop :=
  ∀ (s : State) (b : Byte), s.parser.state = .skipping →
    exec (.parse b) s = .next { s with msg := none, parser :=
      if b = 0x20#8 then { s.parser with state := .idle, crc := crcUpdate s.parser.crc b }
      else if b = 0x7C#8 then { s.parser with state := .checksum, crc := crcUpdate s.parser.crc b,
                                              acc := 0#32, neg := false, cnt := 0#4 }
      else { s.parser with crc := crcUpdate s.parser.crc b } }

/-- 40_parser.md R123 to R125, R127: in Checksum a lowercase hex digit shifts in modulo 2^32 with a count that saturates at
15, a space and a carriage return change nothing, and any byte but these and newline is X7. Nothing is folded. -/
def Obligations.ChecksumCollectsHexDigits : Prop :=
  ∀ (s : State) (b : Byte), s.parser.state = .checksum → b ≠ 0x0A#8 →
    exec (.parse b) s = .next (
      if (0x30 ≤ b.toNat ∧ b.toNat ≤ 0x39) ∨ (0x61 ≤ b.toNat ∧ b.toNat ≤ 0x66) then
        { s with msg := none, parser := { s.parser with
            acc := (s.parser.acc <<< 4) |||
              BitVec.ofNat 32 (if b.toNat ≤ 0x39 then b.toNat - 0x30 else b.toNat - 0x61 + 10),
            cnt := if s.parser.cnt = 15#4 then 15#4 else s.parser.cnt + 1#4 } }
      else if b = 0x20#8 ∨ b = 0x0D#8 then { s with msg := none }
      else { s with msg := none, parser := { s.parser with state := .invalid }
                    ghost := s.ghost ++ [.violation .x7] })

/-- 40_parser.md R126, R128: newline in Checksum closes the frame with exactly eight digits that match the finalised CRC or
under ACCEPT_REGARDLESS, and emits where an address is recorded; the length (X8) is judged before the CRC (X9). -/
def Obligations.NewlineClosesTheFrame : Prop :=
  ∀ s : State, s.parser.state = .checksum →
    exec (.parse 0x0A#8) s = .next (
      if s.parser.cnt ≠ 8#4 then
        { s with msg := none, parser := { s.parser with state := .invalid }, ghost := s.ghost ++ [.violation .x8] }
      else if s.cfg.policy = .rejectOnMismatch ∧ s.parser.acc ≠ s.parser.crc ^^^ 0xFFFFFFFF#32 then
        { s with msg := none, parser := { s.parser with state := .invalid }, ghost := s.ghost ++ [.violation .x9] }
      else
        { s with parser := { s.parser with state := .initial }
                 msg := if s.parser.addrV then some
                     { address := s.parser.addr
                       voltage := if s.parser.voltV then some s.parser.volt else none
                       temperature := if s.parser.tempV then some s.parser.temp else none
                       button := if s.parser.btnV then some s.parser.btn else none } else none })

/-- 60_exceptions.md R224, 40_parser.md section 2: Invalid is absorbing: every byte is ignored, nothing is folded, emitted
or recorded. -/
def Obligations.InvalidIgnoresEveryByte : Prop :=
  ∀ (s : State) (b : Byte), s.parser.state = .invalid → exec (.parse b) s = .next { s with msg := none }

/-- 40_parser.md section 3: the registers after PARSE and the violation are those of the complete transition table, whose
cell is found by the state before the byte and the byte's column, and whose action runs after the fold. For the values no
run reaches, the cut of an over-wide accumulator at a commit, its wrap at a digit, and a decimal digit count above 4 are
the model's choice (log entry 20). -/
def Obligations.ParseFollowsTheTransitionTable : Prop :=
  ∀ (s : State) (b : Byte), ∃ t, exec (.parse b) s = .next t ∧
    (t.parser, t.ghost) =
      (let r := cellAction s.cfg b { s.parser with crc := crcFold s.cfg s.parser.state b s.parser.crc }
                  (tableCell s.parser.state (column b))
       (r.1, s.ghost ++ (match r.2 with | none => [] | some x => [.violation x])))

/-- 41_crc.md R162: which bytes PARSE folds into the running CRC. -/
def Obligations.FoldCoversTheFrameOnly : Prop :=
  ∀ (s : State) (b : Byte), ∃ t, exec (.parse b) s = .next t ∧ t.parser.crc =
    if s.parser.state = .checksum ∨ s.parser.state = .invalid then s.parser.crc
    else if s.parser.state = .initial then
      (if b = 0x3A#8 then crcUpdate (if s.cfg.crcRestart then 0#32 else s.parser.crc) b else s.parser.crc)
    else crcUpdate s.parser.crc b

/-- 40_parser.md R102: PARSE returns a Message if and only if the state after the byte is Initial and an address is
recorded; the Message carries every field held, and the emission test writes no register: they are those the state rule
leaves. -/
def Obligations.EmissionNeedsInitialAndAddress : Prop :=
  ∀ (s : State) (b : Byte), ∃ t, exec (.parse b) s = .next t ∧
    t.parser = (parseRegs s.cfg b s.parser).1 ∧
    (t.msg.isSome = true ↔ t.parser.state = .initial ∧ t.parser.addrV = true) ∧
    ∀ m, t.msg = some m → m.address = t.parser.addr ∧
      m.voltage = (if t.parser.voltV then some t.parser.volt else none) ∧
      m.temperature = (if t.parser.tempV then some t.parser.temp else none) ∧
      m.button = (if t.parser.btnV then some t.parser.btn else none)

/-- 40_parser.md R140: PRESET, in every state. -/
def Obligations.PresetClearsTheParser : Prop :=
  ∀ s : State, exec .preset s = .next { s with parser :=
    { state := .initial, acc := 0#32, neg := false, cnt := 0#4, crc := 0x00000000#32
      addrV := false, voltV := false, tempV := false, btnV := false
      addr := 0#4, volt := 0#14, temp := 0#15, btn := 0#3 } }

/-- 40_parser.md R141: PRESET is idempotent, and the state it leaves equals the Parser part of the power-on state. -/
def Obligations.PresetIsIdempotentAndEqualsPowerOn : Prop :=
  ∀ (s : State) (t : Nat), ∃ s', exec .preset s = .next s' ∧ exec .preset s' = .next s' ∧
    s'.parser = (State.powerOn s.cfg t).parser

/-- 60_exceptions.md R222: an operation that enters Invalid writes `P.state` (after the fold) and no other Parser
register. -/
def Obligations.EnteringInvalidSavesNothing : Prop :=
  ∀ (i : Instr) (s s' : State), exec i s = .next s' →
    s.parser.state ≠ .invalid → s'.parser.state = .invalid →
    ∃ b, (i = .parse b ∨ i = .recvByte b ∨ encode i = .wire b) ∧
      s'.parser = { s.parser with state := .invalid, crc := crcFold s.cfg s.parser.state b s.parser.crc } ∧
      s'.msg = none ∧
      s'.cfg = s.cfg ∧ s'.arb.turn = s.arb.turn ∧ s'.arb.dir = s.arb.dir ∧ s'.tx = s.tx

/-- 60_exceptions.md R223: the only exits from Invalid are PRESET and the silence advance, which PRESETs. -/
def Obligations.OnlyPresetLeavesInvalid : Prop :=
  ∀ (i : Instr) (s s' : State), exec i s = .next s' →
    s.parser.state = .invalid → s'.parser.state ≠ .invalid →
    (i = .preset ∨ (i = .recvIdle ∧ s'.arb.idle = true ∧
        s.cfg.cycleUs + (if s.arb.idle then 0 else s.cfg.byteTimeUs)
          ≤ elapsed s.cfg.timeWidth s.port.now s.arb.last)) ∧
    s'.parser = ParserRegs.reset

/-- 40_parser.md R135: re-emission. In Initial with an address recorded, every byte but `:` emits the held Message and
changes no register. -/
def Obligations.ReEmissionWithoutPreset : Prop :=
  ∀ (s : State) (b : Byte), s.parser.state = .initial → s.parser.addrV = true → b ≠ 0x3A#8 →
    ∃ m, m.address = s.parser.addr ∧ exec (.parse b) s = .next { s with msg := some m } ∧
      ∀ b' : Byte, b' ≠ 0x3A#8 → exec (.parse b') { s with msg := some m } = .next { s with msg := some m }

/-! ## Wire tokens -/

/-- Each wire token is the Parser's step on its byte (30_encoding.md section 2; the model's choice, log entry 9). -/
def Obligations.TokensAreParserSteps : Prop :=
  ∀ s : State,
    exec .frameStart s = exec (.parse 0x3A#8) s ∧ exec .fieldA s = exec (.parse 0x41#8) s ∧
    exec .fieldV s = exec (.parse 0x56#8) s ∧ exec .fieldT s = exec (.parse 0x54#8) s ∧
    exec .fieldB s = exec (.parse 0x42#8) s ∧ (∀ x, exec (.fieldUnknown x) s = exec (.parse x) s) ∧
    exec .separatorSp s = exec (.parse 0x20#8) s ∧ exec .checksumStart s = exec (.parse 0x7C#8) s ∧
    exec .frameEnd s = exec (.parse 0x0A#8) s ∧ exec .checksumCr s = exec (.parse 0x0D#8) s

/-- The field prefixes and separators complete in Idle, the frame-start token in Initial, the carriage return and the newline
of an eight-digit checksum in Checksum, each with its effect (40_parser.md sections 2 and 3). -/
def Obligations.TokensCompleteWhereTheTableNamesThem : Prop :=
  ∀ s : State,
    (s.parser.state = .initial →
      exec .frameStart s = .next { s with msg := none, parser := { s.parser with
        state := .idle, crc := crcUpdate (if s.cfg.crcRestart then 0#32 else s.parser.crc) 0x3A#8 } }) ∧
    (s.parser.state = .idle →
      exec .fieldA s = .next { s with msg := none, parser := { s.parser with
        state := .address, crc := crcUpdate s.parser.crc 0x41#8 } } ∧
      exec .fieldV s = .next { s with msg := none, parser := { s.parser with
        state := .voltage, crc := crcUpdate s.parser.crc 0x56#8, acc := 0#32, neg := false, cnt := 0#4 } } ∧
      exec .fieldT s = .next { s with msg := none, parser := { s.parser with
        state := .temperature, crc := crcUpdate s.parser.crc 0x54#8, acc := 0#32, neg := false, cnt := 0#4 } } ∧
      exec .fieldB s = .next { s with msg := none, parser := { s.parser with
        state := .button, crc := crcUpdate s.parser.crc 0x42#8, acc := 0#32, neg := false, cnt := 0#4 } } ∧
      (∀ x, Instr.wellFormed (.fieldUnknown x) = true →
        exec (.fieldUnknown x) s = .next { s with msg := none, parser := { s.parser with
          state := .skipping, crc := crcUpdate s.parser.crc x } }) ∧
      exec .separatorSp s = .next { s with msg := none, parser := { s.parser with
        crc := crcUpdate s.parser.crc 0x20#8 } } ∧
      exec .checksumStart s = .next { s with msg := none, parser := { s.parser with
        state := .checksum, crc := crcUpdate s.parser.crc 0x7C#8, acc := 0#32, neg := false, cnt := 0#4 } }) ∧
    (s.parser.state = .checksum →
      exec .checksumCr s = .next { s with msg := none } ∧
      (s.parser.cnt = 8#4 → s.parser.addrV = false → s.cfg.policy = .acceptRegardless →
        exec .frameEnd s = .next { s with msg := none, parser := { s.parser with state := .initial } }) ∧
      (s.parser.cnt = 8#4 → s.parser.addrV = true → s.parser.acc = s.parser.crc ^^^ 0xFFFFFFFF#32 →
        ∃ m, m.address = s.parser.addr ∧
          exec .frameEnd s = .next { s with msg := some m, parser := { s.parser with state := .initial } }))

/-! ## CRC and framing -/

/-- 41_crc.md sections 1 and 3 (R160, R161, R165, R168): the eight shifts of `CrcUpdate`, most significant bit first, the
CRC of a byte sequence, the value on the empty one (R165's inference), and the catalogue check value. The algorithm and
the check value are the spec's from general knowledge, not from its source (log entry 17). -/
def Obligations.CrcFunctionAndCheckValue : Prop :=
  (∀ (r : Word32) (b : Byte), crcUpdate r b =
    let shift : Word32 → Word32 := fun x => if x.getLsbD 31 then (x <<< 1) ^^^ 0x04C11DB7#32 else x <<< 1
    shift (shift (shift (shift (shift (shift (shift (shift (r ^^^ (b.setWidth 32 <<< 24)))))))))) ∧
  (∀ x : List Byte, crc32 x = x.foldl crcUpdate 0x00000000#32 ^^^ 0xFFFFFFFF#32) ∧ crc32 [] = 0xFFFFFFFF#32 ∧
  crc32 [0x31#8, 0x32#8, 0x33#8, 0x34#8, 0x35#8, 0x36#8, 0x37#8, 0x38#8, 0x39#8] = 0x765E7680#32

/-- 41_crc.md R167: `Hex8` writes eight lowercase hex digits, most significant nibble first, that read back (30_encoding.md
R83) as the value. -/
def Obligations.HexDigitsReadBack : Prop :=
  ∀ c : Word32, (hex8 c).length = 8 ∧
    (∀ k : Nat, k < 8 → (hex8 c)[k]? = some (
      let n := (c >>> (28 - 4 * k)).toNat % 16
      if n ≤ 9 then BitVec.ofNat 8 (0x30 + n) else BitVec.ofNat 8 (0x61 + n - 10))) ∧
    (∀ x ∈ hex8 c, isHexLc x = true) ∧ (hex8 c).foldl hexShift 0#32 = c

/-- 41_crc.md R166: the frame of a payload: marker, payload, marker, the CRC of these three as eight hex digits, newline;
its length is `len(payload) + 11`. -/
def Obligations.FrameOfAPayload : Prop :=
  ∀ payload : List Byte,
    frame payload = [0x3A#8] ++ payload ++ [0x7C#8] ++ hex8 (crc32 ([0x3A#8] ++ payload ++ [0x7C#8])) ++ [0x0A#8] ∧
    (frame payload).length = payload.length + 11

/-- 41_crc.md R163: at the bar of an accepted frame read from the state PRESET leaves, the finalised running CRC is the
CRC-32 of the bytes from `:` through the bar, whatever junk came before. -/
def Obligations.RunningCrcCoversTheFrame : Prop :=
  ∀ (cfg : Config) (p : ParserRegs) (junk items digits : List Byte) (a : Bool),
    0x3A#8 ∉ junk → Items items a → (∀ x ∈ digits, isHexLc x = true ∨ x = 0x20#8 ∨ x = 0x0D#8) →
    (parseAll cfg (preset p) (junk ++ 0x3A#8 :: items ++ 0x7C#8 :: digits)).state = .checksum ∧
    crcFinal (parseAll cfg (preset p) (junk ++ 0x3A#8 :: items ++ 0x7C#8 :: digits)).crc =
      crc32 (0x3A#8 :: items ++ [0x7C#8])

/-! ## Whole frames -/

/-- 40_parser.md R131, one direction: every string of the accepted language, read from the state PRESET leaves, emits on its
last byte and on no byte before. -/
def Obligations.AcceptedStringsEmit : Prop :=
  ∀ (cfg : Config) (p : ParserRegs) (w : List Byte), Accepted cfg w →
    ∃ m, messages cfg (preset p) w = List.replicate (w.length - 1) none ++ [some m]

/-- 40_parser.md R131, the other direction, for strings in which no earlier byte closes a frame (after which R134 and R135
hold; log entry 16): a string whose last byte emits is of the accepted language. -/
def Obligations.OnlyAcceptedStringsEmit : Prop :=
  ∀ (cfg : Config) (p : ParserRegs) (w : List Byte),
    (∀ u v, w = u ++ v → v ≠ [] → ¬ ClosesFrame cfg (preset p) u) →
    (emitTest (parseAll cfg (preset p) w)).isSome = true → Accepted cfg w

/-- 40_parser.md R136: the round trip. Every body of the sender's grammar with one address and at most one of each other
recognised field, framed and read from the state PRESET leaves, emits exactly one Message, on the newline, under either
policy, with exactly the values written. -/
def Obligations.SentFramesAreReceived : Prop :=
  ∀ (cfg : Config) (p : ParserRegs) (fs : List SentField) (h : Slot),
    (∀ f ∈ fs, f.sendable = true) → sentAddresses fs = [h] → (sentVoltages fs).length ≤ 1 →
    (sentTemperatures fs).length ≤ 1 → (sentButtons fs).length ≤ 1 →
    ∃ m : Message, messages cfg (preset p) (frame (sentBody fs)) =
        List.replicate ((sentBody fs).length + 10) none ++ [some m] ∧
      m.address = h ∧ m.voltage.toList.map BitVec.toNat = sentVoltages fs ∧
      m.temperature.toList.map BitVec.toInt = sentTemperatures fs ∧ m.button.toList.map BitVec.toNat = sentButtons fs

/-- 40_parser.md R137: in Initial with no address recorded, as PRESET leaves it, a byte sequence without `:` produces no
Message, and the Parser does not move. -/
def Obligations.NoFrameStartNoMessage : Prop :=
  ∀ (cfg : Config) (p : ParserRegs) (w : List Byte),
    p.state = .initial → p.addrV = false → 0x3A#8 ∉ w →
    messages cfg p w = List.replicate w.length none ∧ parseAll cfg p w = p

/-! ## The Arbiter -/

/-- 42_arbiter.md R205: NOP, command word op 000, leaves the current state. -/
def Obligations.NopLeavesTheState : Prop :=
  (∀ s : State, exec .nop s = .next s) ∧ ∀ w : CmdWord, w.extractLsb' 0 3 = 0#3 → decodeCommand w = .nop

/-- 42_arbiter.md R180: CAN_SEND, command word op 011, returns whether the signed turn estimate equals the device's address,
0 at the sentinel, which is the output `can_send`, and writes nothing but its result. -/
def Obligations.CanSendComparesTheTurn : Prop :=
  (∀ s : State, ∃ c : Bool, exec .canSend s = .next { s with cs := some c } ∧
    (c = true ↔ s.arb.turn.toInt = (s.cfg.myAddr.toNat : Int)) ∧ (s.arb.turn = -1#5 → c = false) ∧
    c = canSend s.cfg s.arb.turn) ∧
  ∀ w : CmdWord, w.extractLsb' 0 3 = 3#3 → decodeCommand w = .canSend

/-- 42_arbiter.md R182 with R183, R185 and R186: where the transport completes, as R182 takes it to, SEND writes the frame in transmit mode, flushes, returns to receive mode, and
claims the turn, whatever the turn is; no Parser register changes. Only the ghost history, no hardware state, is left
open here. -/
def Obligations.SendTransmitsAndClaimsTheTurn : Prop :=
  ∀ s : State, s.port.txStall = none →
    ∃ g : List GhostEvent, exec .send s = .next { s with
      tx := s.tx ++ ([.setDir .tx] ++ (frame s.port.payload).map .write ++ [.flush, .setDir .rx])
      arb := { turn := BitVec.ofNat 5 s.cfg.myAddr.toNat, last := s.port.now % 2 ^ s.cfg.timeWidth
               idle := false, dir := .rx }
      ghost := g }

/-- 70_reset_and_hazards.md section 3 and 93 row 11, as the model shows the hang (log entry 12): where the transport stops
after `k` byte writes, SEND has asked for transmit mode, for these writes and for the write or flush that never completes,
the direction stays TX, the turn is not claimed, and the block is hung. While it is hung, a step with moves pending and no
power-on reset among them is stuck, and the first power-on reset is taken, whatever stands before it. -/
def Obligations.StalledTransportHangsSend : Prop :=
  (∀ (s : State) (k : Nat), s.port.txStall = some k →
    ∃ g : List GhostEvent, exec .send s = .next { s with
      tx := s.tx ++ ([.setDir .tx] ++ ((frame s.port.payload).take k).map .write ++
        (match (frame s.port.payload)[k]? with
          | some x => [.write x]
          | none => [.flush]))
      arb := { s.arb with dir := .tx }
      ghost := g
      hung := true }) ∧
  (∀ s : State, s.hung = true → s.inbox ≠ [] → (∀ (e : Event) (t : Nat), e ∈ s.inbox → e ≠ .powerOn t) →
    step s = .fault .transportStalled) ∧
  (∀ (s : State) (pre rest : List Event) (t : Nat), s.hung = true → (∀ (e : Event) (t : Nat), e ∈ pre → e ≠ .powerOn t) →
    s.inbox = pre ++ .powerOn t :: rest →
    ∃ s', step s = .next s' ∧ s'.cfg = s.cfg ∧ s'.inbox = rest ∧ s'.hung = false ∧
      s'.parser = (State.powerOn s.cfg t).parser ∧ s'.arb = (State.powerOn s.cfg t).arb)

/-- 42_arbiter.md R191 to R193: RECV with a byte is bus activity at `now` and PARSE of the byte; an emitted Message PRESETs
the Parser, snaps the turn to its address and is returned; otherwise the turn stays. -/
def Obligations.RecvByteParsesAndSnapsTheTurn : Prop :=
  ∀ (s : State) (b : Byte), ∃ t, exec (.parse b) s = .next t ∧
    exec (.recvByte b) s = .next (
      match t.msg with
      | none => { t with arb := { s.arb with last := s.port.now % 2 ^ s.cfg.timeWidth, idle := false } }
      | some m => { t with
          parser := ParserRegs.reset
          arb := { turn := BitVec.ofNat 5 m.address.toNat, last := s.port.now % 2 ^ s.cfg.timeWidth
                   idle := false, dir := s.arb.dir } })

/-- 42_arbiter.md R195 to R198: RECV with no byte advances the turn by the whole slot periods in the elapsed time less the
grace, PRESETs the Parser and restarts the timer if there is at least one, and changes no register otherwise. -/
def Obligations.SilenceAdvancesTheTurn : Prop :=
  ∀ s : State, s.cfg.valid →
    ∃ e g : Nat, (e : Int) = ((s.port.now : Int) - (s.arb.last : Int)) % (2 ^ s.cfg.timeWidth : Int) ∧
      g = (if s.arb.idle then 0 else s.cfg.byteTimeUs) ∧
      ∃ t, exec .recvIdle s = .next t ∧
        if g + s.cfg.cycleUs ≤ e then
          t = { s with msg := none, parser := ParserRegs.reset, ghost := t.ghost
                       arb := { turn := t.arb.turn, last := s.port.now % 2 ^ s.cfg.timeWidth, idle := true
                                dir := s.arb.dir } } ∧
          t.arb.turn.toInt = (s.arb.turn.toInt + ((e - g) / s.cfg.cycleUs : Nat)) % 16
        else t = { s with msg := none }

/-- 60_exceptions.md sections 1 and 6: the ghost record of the Arbiter's events, the model's choice (log entry 8): a SEND out
of turn is recorded and transmits all the same, a SEND in turn records nothing, whether or not the transport stalls, and
an advance records X10. -/
def Obligations.ArbiterEventsAreRecorded : Prop :=
  ∀ s : State,
    (∃ t, exec .send s = .next t ∧ t.tx ≠ s.tx ∧
      t.ghost = s.ghost ++ (if s.arb.turn.toInt = (s.cfg.myAddr.toNat : Int) then [] else [.outOfTurn])) ∧
    (s.cfg.valid →
      (if s.arb.idle then 0 else s.cfg.byteTimeUs) + s.cfg.cycleUs
        ≤ elapsed s.cfg.timeWidth s.port.now s.arb.last →
      ∃ t, exec .recvIdle s = .next t ∧ t.ghost = s.ghost ++ [.violation .x10])

/-- 42_arbiter.md R202: an advance that sees elapsed time in `[k * CYCLE + g, (k + 1) * CYCLE + g)` with k at least 1 moves
the turn by exactly k slots modulo 16. -/
def Obligations.LongSilenceCatchesUp : Prop :=
  ∀ (s : State) (k : Nat), s.cfg.valid → 1 ≤ k →
    k * s.cfg.cycleUs + (if s.arb.idle then 0 else s.cfg.byteTimeUs)
      ≤ elapsed s.cfg.timeWidth s.port.now s.arb.last →
    elapsed s.cfg.timeWidth s.port.now s.arb.last
      < (k + 1) * s.cfg.cycleUs + (if s.arb.idle then 0 else s.cfg.byteTimeUs) →
    ∃ t, exec .recvIdle s = .next t ∧ t.arb.turn.toInt = (s.arb.turn.toInt + (k : Int)) % 16

/-- 70_reset_and_hazards.md R269: with `A.idle = 0` a silence of exactly k periods advances only k - 1 slots, where the
grace is at least 1 and at most a period. -/
def Obligations.ExactMultipleLosesASlotToTheGrace : Prop :=
  ∀ (s : State) (k : Nat), s.cfg.valid → s.arb.idle = false → 1 ≤ s.cfg.byteTimeUs →
    s.cfg.byteTimeUs ≤ s.cfg.cycleUs → 1 ≤ k →
    elapsed s.cfg.timeWidth s.port.now s.arb.last = k * s.cfg.cycleUs →
    ∃ t, exec .recvIdle s = .next t ∧
      (k = 1 → t = { s with msg := none }) ∧
      (2 ≤ k → t.arb.turn.toInt = (s.arb.turn.toInt + (k : Int) - 1) % 16 ∧ t.arb.idle = true)

/-- 42_arbiter.md section 3 and 70_reset_and_hazards.md section 3: elapsed time is a wrapping difference: the time since the
last event when the silence is shorter than `2^W`, across a wrap of the clock too, and the remainder otherwise. -/
def Obligations.ElapsedTimeWraps : Prop :=
  ∀ w start silence : Nat,
    elapsed w (start + silence) (start % 2 ^ w) = silence % 2 ^ w ∧
    elapsed w ((start + silence) % 2 ^ w) (start % 2 ^ w) = silence % 2 ^ w ∧
    (silence < 2 ^ w → elapsed w ((start + silence) % 2 ^ w) (start % 2 ^ w) = silence)

/-- 42_arbiter.md R200, step by step: an operation that makes CAN_SEND true is a SEND, a RECV whose emitted Message carries
the device's address, or a silence advance whose result is the device's address. -/
def Obligations.OnlyThreeOperationsOpenTheGate : Prop :=
  ∀ (i : Instr) (s s' : State), exec i s = .next s' →
    canSend s.cfg s.arb.turn = false → canSend s'.cfg s'.arb.turn = true →
    i = .send ∨ (∃ b m, i = .recvByte b ∧ s'.msg = some m ∧ m.address = s.cfg.myAddr) ∨
    (i = .recvIdle ∧ s'.arb.idle = true ∧ s'.parser = ParserRegs.reset ∧
      s'.arb.turn.toInt = (s.cfg.myAddr.toNat : Int))

/-- 42_arbiter.md R200, the run: from power-on at time `t`, as long as no byte arrives and the clock has not reached
`t + BYTE_TIME + (P_MY_ADDR + 1) * CYCLE`, CAN_SEND is false after every tick, however often RECV is called. -/
def Obligations.GateStaysShutDuringEarlySilence : Prop :=
  ∀ (cfg : Config) (t : Nat) (nows : List Nat), cfg.valid →
    List.Pairwise (fun a b : Nat => a ≤ b) (t :: nows) →
    (∀ now ∈ t :: nows, now < 2 ^ cfg.timeWidth ∧
      now < t + cfg.byteTimeUs + (cfg.myAddr.toNat + 1) * cfg.cycleUs) →
    ∃ s', Host.Core.run Sys2Proof.core nows.length
        ({ State.powerOn cfg t with inbox := nows.map fun now => .call 0x0005#16 now [] none } : State) = .next s' ∧
      canSend s'.cfg s'.arb.turn = false

/-- 42_arbiter.md R201, step by step: once CAN_SEND is true, an operation that makes it false is a RECV that emits a Message
of another address, or an advance by a number of slots that 16 does not divide. -/
def Obligations.OnlyTwoOperationsShutTheGate : Prop :=
  ∀ (i : Instr) (s s' : State), s.cfg.valid → exec i s = .next s' →
    canSend s.cfg s.arb.turn = true → canSend s'.cfg s'.arb.turn = false →
    (∃ b m, i = .recvByte b ∧ s'.msg = some m ∧ m.address ≠ s.cfg.myAddr) ∨
    (i = .recvIdle ∧ ∃ k : Nat, k % 16 ≠ 0 ∧
      k * s.cfg.cycleUs + (if s.arb.idle then 0 else s.cfg.byteTimeUs)
        ≤ elapsed s.cfg.timeWidth s.port.now s.arb.last ∧
      elapsed s.cfg.timeWidth s.port.now s.arb.last
        < (k + 1) * s.cfg.cycleUs + (if s.arb.idle then 0 else s.cfg.byteTimeUs))

/-- 10_state.md R33: once the turn estimate leaves the sentinel it never returns to it. -/
def Obligations.TurnNeverReturnsToTheSentinel : Prop :=
  ∀ (i : Instr) (s s' : State), exec i s = .next s' → 0 ≤ s.arb.turn.toInt →
    0 ≤ s'.arb.turn.toInt ∧ s'.arb.turn.toInt ≤ 15

/-- 42_arbiter.md R184: no operation but SEND touches the direction or asks the transport for anything, and a SEND whose
transport completes, as the rule takes it to, asks for transmit mode, bytes, a flush and receive mode, in this order, and
ends with the direction at RX. -/
def Obligations.DirectionIsReceiveOnEveryExit : Prop :=
  ∀ (i : Instr) (s s' : State), exec i s = .next s' →
    (i ≠ .send → s'.tx = s.tx ∧ s'.arb.dir = s.arb.dir) ∧
    (i = .send → s.port.txStall = none → s'.arb.dir = .rx ∧
      ∃ ws : List Byte, s'.tx = s.tx ++ ([.setDir .tx] ++ ws.map .write ++ [.flush, .setDir .rx]))

/-! ## The whole machine -/

/-- 30_encoding.md R93: the reserved op codes are refused, and every command word that carries one stands for them. -/
def Obligations.ReservedOpCodesAreRefused : Prop :=
  (∀ s : State, exec .reserved110 s = .refused (.reservedOp 6#3) ∧ exec .reserved111 s = .refused (.reservedOp 7#3)) ∧
  ∀ w : CmdWord, (w.extractLsb' 0 3 = 6#3 → decodeCommand w = .reserved110) ∧
    (w.extractLsb' 0 3 = 7#3 → decodeCommand w = .reserved111)

/-- The block raises no exception (60_exceptions.md section 1): an operation answers a next state or, for a reserved op
code, a refusal, and a step stops for that refusal, or stuck behind a SEND that hangs on a stalled transport with no
power-on reset to come (60_exceptions.md section 3; that the model shows this hang, and as a fault, is its choice, log
entry 12). -/
def Obligations.NothingElseStops : Prop :=
  (∀ (i : Instr) (s : State), i ≠ .reserved110 → i ≠ .reserved111 → ∃ t, exec i s = .next t) ∧
  ∀ s : State,
    (∀ f, step s = .fault f → f = .transportStalled ∧ s.hung = true ∧ s.inbox ≠ [] ∧
      ∀ (e : Event) (t : Nat), e ∈ s.inbox → e ≠ .powerOn t) ∧
    (∀ r, step s = .refused r → s.hung = false ∧
      ∃ w now payload stall rest, s.inbox = .call w now payload stall :: rest ∧
        (opField w = 6#3 ∨ opField w = 7#3) ∧ r = .reservedOp (opField w))

/-- 10_state.md R44: every step keeps the state invariant, from every state that meets it: items 1 to 5, the range of item
6, item 7 (RX, but TX inside a hung SEND, which has not ended: log entry 12), the width of `A.last`, and value bits 0 in
an absent field. -/
def Obligations.StepKeepsTheInvariant : Prop :=
  ∀ s s' : State, s.inv → step s = .next s' → s'.inv

/-- 10_state.md R44 item 8: while the environment makes only the moves of the Arbiter configuration, every step keeps "in
Initial no address is recorded". -/
def Obligations.ArbiterMovesKeepTheArbiterInvariant : Prop :=
  ∀ s s' : State, s.arbiterInv → (∀ e ∈ s.inbox, e.arbiterMove = true) → step s = .next s' →
    s'.arbiterInv ∧ ∀ e ∈ s'.inbox, e.arbiterMove = true

/-- 10_state.md R39: no step writes the configuration. -/
def Obligations.NoStepWritesTheConfiguration : Prop :=
  ∀ s s' : State, step s = .next s' → s'.cfg = s.cfg

/-- 60_exceptions.md R221: no step of the machine reads the ghost history: two states that differ only there step alike. -/
def Obligations.GhostHistoryIsNeverRead : Prop :=
  ∀ (s : State) (g : List GhostEvent),
    mapNext State.eraseGhost (step { s with ghost := g }) = mapNext State.eraseGhost (step s)

/-- 10_state.md R38: every Message a step returns is legal, from every state that meets the invariant. -/
def Obligations.ReturnedMessagesAreLegal : Prop :=
  ∀ (i : Instr) (s s' : State) (m : Message), s.inv → s.msg = none → exec i s = .next s' → s'.msg = some m → m.legal

/-- 30_encoding.md R92: the 40-bit layout of the `msg` result. -/
def Obligations.MessageLayout : Prop :=
  msgBits none = 0#40 ∧
  ∀ m : Message, (msgBits (some m)).getLsbD 0 = true ∧ (msgBits (some m)).extractLsb' 1 4 = m.address ∧
    (msgBits (some m)).getLsbD 5 = m.voltage.isSome ∧ (msgBits (some m)).extractLsb' 6 14 = m.voltage.getD 0#14 ∧
    (msgBits (some m)).getLsbD 20 = m.temperature.isSome ∧
    (msgBits (some m)).extractLsb' 21 15 = m.temperature.getD 0#15 ∧
    (msgBits (some m)).getLsbD 36 = m.button.isSome ∧ (msgBits (some m)).extractLsb' 37 3 = m.button.getD 0#3
end

