-- ==== Sys2Proof/Laws/Operands.lean ====
section
/-! SUPPORT. Lemmas about byte classes, digits, command words, slots and time. -/

namespace Sys2Proof.Machine

/-! Byte classes and digits. -/

theorem inRange_iff (lo hi : Nat) (b : Byte) : inRange lo hi b = true ↔ lo ≤ b.toNat ∧ b.toNat ≤ hi := by
  simp [inRange]

theorem isDec_iff (b : Byte) : isDec b = true ↔ 0x30 ≤ b.toNat ∧ b.toNat ≤ 0x39 := inRange_iff ..

theorem isBtn_iff (b : Byte) : isBtn b = true ↔ 0x30 ≤ b.toNat ∧ b.toNat ≤ 0x35 := inRange_iff ..

theorem isHexLc_iff (b : Byte) :
    isHexLc b = true ↔ (0x30 ≤ b.toNat ∧ b.toNat ≤ 0x39) ∨ (0x61 ≤ b.toNat ∧ b.toNat ≤ 0x66) := by
  simp [isHexLc, inRange]

theorem isUpOther_iff (b : Byte) :
    isUpOther b = true ↔ 0x43 ≤ b.toNat ∧ b.toNat ≤ 0x5A ∧ b ≠ letT ∧ b ≠ letV := by
  simp [isUpOther, inRange, and_assoc]

theorem decval_lt {b : Byte} (h : isDec b = true) : decval b < 10 := by
  rw [isDec_iff] at h
  simp only [decval]
  omega

theorem hexval_lt {b : Byte} (h : isHexLc b = true) : hexval b < 16 := by
  rw [isHexLc_iff] at h
  simp only [hexval, inRange_iff]
  split <;> omega

theorem bumpCnt_eq (c : BitVec 4) : bumpCnt c = if c = 15#4 then 15#4 else c + 1#4 := by
  revert c
  decide

theorem bumpCnt_toNat (c : BitVec 4) : (bumpCnt c).toNat = min 15 (c.toNat + 1) := by
  revert c
  decide

theorem decShift_toNat {acc : Word32} {b : Byte} (h : acc.toNat * 10 + decval b < 2 ^ 32) :
    (decShift acc b).toNat = acc.toNat * 10 + decval b := by
  simpa [decShift] using Nat.mod_eq_of_lt h

/-- `(P.acc << 4) | hexval(h)`, the second form of 30_encoding.md R83. -/
theorem hexShift_eq_or {b : Byte} (acc : Word32) (h : isHexLc b = true) :
    hexShift acc b = (acc <<< 4) ||| BitVec.ofNat 32 (hexval b) := by
  have hv := hexval_lt h
  apply BitVec.eq_of_toNat_eq
  rw [← BitVec.add_eq_or_of_and_eq_zero]
  · simp [hexShift, Nat.shiftLeft_eq]
  · have hw : BitVec.ofNat 32 (hexval b) = (BitVec.ofNat 4 (hexval b)).setWidth 32 := by
      apply BitVec.eq_of_toNat_eq
      simp
      omega
    rw [hw]
    ext i hi
    simp
    intro h1 h2
    exact BitVec.getLsbD_of_ge _ _ (by omega)

/-! The fields of a command word. -/

@[simp] theorem opField_cmdWord (b : Byte) (v : Bool) (op : BitVec 3) : opField (cmdWord b v op) = op := by
  apply BitVec.eq_of_toNat_eq
  have := b.isLt
  have := op.isLt
  simp only [opField, cmdWord, BitVec.extractLsb'_toNat, BitVec.toNat_ofNat, Nat.shiftRight_zero]
  cases v <;> simp <;> omega

@[simp] theorem bField_cmdWord (b : Byte) (v : Bool) (op : BitVec 3) : bField (cmdWord b v op) = b := by
  apply BitVec.eq_of_toNat_eq
  have := b.isLt
  have := op.isLt
  simp only [bField, cmdWord, BitVec.extractLsb'_toNat, BitVec.toNat_ofNat]
  cases v <;> simp [Nat.shiftRight_eq_div_pow] <;> omega

@[simp] theorem vField_cmdWord (b : Byte) (v : Bool) (op : BitVec 3) : vField (cmdWord b v op) = v := by
  have := b.isLt
  have := op.isLt
  simp only [vField, cmdWord, BitVec.getLsbD_ofNat, Nat.testBit_eq_decide_div_mod_eq]
  cases v <;> simp <;> omega

/-- The eight operation codes. -/
theorem opField_cases (w : CmdWord) :
    opField w = 0#3 ∨ opField w = 1#3 ∨ opField w = 2#3 ∨ opField w = 3#3 ∨ opField w = 4#3 ∨ opField w = 5#3 ∨
      opField w = 6#3 ∨ opField w = 7#3 := by
  generalize opField w = x
  revert x
  decide

/-! Slots and time. -/

@[simp] theorem slotTurn_toInt (a : Slot) : (slotTurn a).toInt = (a.toNat : Int) := by
  revert a
  decide

/-- A register value read as an unsigned slot is in range. -/
theorem slotTurn_range (a : Slot) : 0 ≤ (slotTurn a).toInt ∧ (slotTurn a).toInt ≤ 15 := by
  revert a
  decide

theorem turnPlus_toInt (t : Turn) (k : Nat) : (turnPlus t k).toInt = (t.toInt + (k : Int)) % 16 := by
  have h1 : 0 ≤ (t.toInt + (k : Int)) % 16 := Int.emod_nonneg _ (by decide)
  have h2 : (t.toInt + (k : Int)) % 16 < 16 := Int.emod_lt_of_pos _ (by decide)
  simp only [turnPlus, nSlots, BitVec.toInt_ofInt]
  simp [Int.bmod]
  omega

theorem truncTime_lt (w t : Nat) : truncTime w t < 2 ^ w := Nat.mod_lt _ (Nat.two_pow_pos w)

/-- The elapsed time as the integer of 42_arbiter.md R195. -/
theorem elapsed_eq_emod (w now last : Nat) :
    ((elapsed w now last : Nat) : Int) = ((now : Int) - (last : Int)) % (2 ^ w : Int) := by
  have h := Nat.two_pow_pos w
  rw [elapsed, Int.toNat_of_nonneg (Int.emod_nonneg _ (by omega))]
  push_cast
  rfl

theorem elapsed_lt (w now last : Nat) : elapsed w now last < 2 ^ w := by
  have h : (0 : Int) < 2 ^ w := by positivity
  have e := elapsed_eq_emod w now last
  have l := Int.emod_lt_of_pos ((now : Int) - (last : Int)) h
  have : ((elapsed w now last : Nat) : Int) < ((2 ^ w : Nat) : Int) := by
    push_cast
    omega
  omega

/-- Without a wrap the elapsed time is the difference. -/
theorem elapsed_of_le {w now last : Nat} (h : last ≤ now) (hw : now - last < 2 ^ w) :
    elapsed w now last = now - last := by
  have e := elapsed_eq_emod w now last
  have : ((now : Int) - (last : Int)) % (2 ^ w : Int) = (now : Int) - (last : Int) := by
    apply Int.emod_eq_of_lt (by omega)
    have : ((now - last : Nat) : Int) < ((2 ^ w : Nat) : Int) := by omega
    push_cast [h] at this
    exact this
  omega

/-- The two conditions of 42_arbiter.md R195 as one, for a slot period of at least 1. -/
theorem silenceElapsed_eq {cfg : Config} (h : 1 ≤ cfg.cycleUs) (e g : Nat) :
    silenceElapsed cfg e g = decide (g + cfg.cycleUs ≤ e) := by
  rw [silenceElapsed, ← Bool.decide_and]
  exact decide_eq_decide.mpr (by omega)

end Sys2Proof.Machine
end

