-- ==== Sys2Proof/Laws/State.lean ====
section
/-! SUPPORT. One lemma per field and per update of State, so that no proof unfolds a record update. -/

namespace Sys2Proof.Machine

variable (s : State)

@[simp] theorem State.withParser_cfg (p : ParserRegs) : (s.withParser p).cfg = s.cfg := rfl
@[simp] theorem State.withParser_parser (p : ParserRegs) : (s.withParser p).parser = p := rfl
@[simp] theorem State.withParser_arb (p : ParserRegs) : (s.withParser p).arb = s.arb := rfl
@[simp] theorem State.withParser_port (p : ParserRegs) : (s.withParser p).port = s.port := rfl
@[simp] theorem State.withParser_inbox (p : ParserRegs) : (s.withParser p).inbox = s.inbox := rfl
@[simp] theorem State.withParser_msg (p : ParserRegs) : (s.withParser p).msg = s.msg := rfl
@[simp] theorem State.withParser_cs (p : ParserRegs) : (s.withParser p).cs = s.cs := rfl
@[simp] theorem State.withParser_tx (p : ParserRegs) : (s.withParser p).tx = s.tx := rfl
@[simp] theorem State.withParser_ghost (p : ParserRegs) : (s.withParser p).ghost = s.ghost := rfl
@[simp] theorem State.withParser_hung (p : ParserRegs) : (s.withParser p).hung = s.hung := rfl

@[simp] theorem State.withArb_cfg (a : ArbRegs) : (s.withArb a).cfg = s.cfg := rfl
@[simp] theorem State.withArb_parser (a : ArbRegs) : (s.withArb a).parser = s.parser := rfl
@[simp] theorem State.withArb_arb (a : ArbRegs) : (s.withArb a).arb = a := rfl
@[simp] theorem State.withArb_port (a : ArbRegs) : (s.withArb a).port = s.port := rfl
@[simp] theorem State.withArb_inbox (a : ArbRegs) : (s.withArb a).inbox = s.inbox := rfl
@[simp] theorem State.withArb_msg (a : ArbRegs) : (s.withArb a).msg = s.msg := rfl
@[simp] theorem State.withArb_cs (a : ArbRegs) : (s.withArb a).cs = s.cs := rfl
@[simp] theorem State.withArb_tx (a : ArbRegs) : (s.withArb a).tx = s.tx := rfl
@[simp] theorem State.withArb_ghost (a : ArbRegs) : (s.withArb a).ghost = s.ghost := rfl
@[simp] theorem State.withArb_hung (a : ArbRegs) : (s.withArb a).hung = s.hung := rfl

@[simp] theorem State.withMsg_cfg (m : Option Message) : (s.withMsg m).cfg = s.cfg := rfl
@[simp] theorem State.withMsg_parser (m : Option Message) : (s.withMsg m).parser = s.parser := rfl
@[simp] theorem State.withMsg_arb (m : Option Message) : (s.withMsg m).arb = s.arb := rfl
@[simp] theorem State.withMsg_port (m : Option Message) : (s.withMsg m).port = s.port := rfl
@[simp] theorem State.withMsg_inbox (m : Option Message) : (s.withMsg m).inbox = s.inbox := rfl
@[simp] theorem State.withMsg_msg (m : Option Message) : (s.withMsg m).msg = m := rfl
@[simp] theorem State.withMsg_cs (m : Option Message) : (s.withMsg m).cs = s.cs := rfl
@[simp] theorem State.withMsg_tx (m : Option Message) : (s.withMsg m).tx = s.tx := rfl
@[simp] theorem State.withMsg_ghost (m : Option Message) : (s.withMsg m).ghost = s.ghost := rfl
@[simp] theorem State.withMsg_hung (m : Option Message) : (s.withMsg m).hung = s.hung := rfl

@[simp] theorem State.withCs_cfg (b : Bool) : (s.withCs b).cfg = s.cfg := rfl
@[simp] theorem State.withCs_parser (b : Bool) : (s.withCs b).parser = s.parser := rfl
@[simp] theorem State.withCs_arb (b : Bool) : (s.withCs b).arb = s.arb := rfl
@[simp] theorem State.withCs_port (b : Bool) : (s.withCs b).port = s.port := rfl
@[simp] theorem State.withCs_inbox (b : Bool) : (s.withCs b).inbox = s.inbox := rfl
@[simp] theorem State.withCs_msg (b : Bool) : (s.withCs b).msg = s.msg := rfl
@[simp] theorem State.withCs_cs (b : Bool) : (s.withCs b).cs = some b := rfl
@[simp] theorem State.withCs_tx (b : Bool) : (s.withCs b).tx = s.tx := rfl
@[simp] theorem State.withCs_ghost (b : Bool) : (s.withCs b).ghost = s.ghost := rfl
@[simp] theorem State.withCs_hung (b : Bool) : (s.withCs b).hung = s.hung := rfl

@[simp] theorem State.transmit_cfg (acts : List TxAction) : (s.transmit acts).cfg = s.cfg := rfl
@[simp] theorem State.transmit_parser (acts : List TxAction) : (s.transmit acts).parser = s.parser := rfl
@[simp] theorem State.transmit_arb (acts : List TxAction) : (s.transmit acts).arb = s.arb := rfl
@[simp] theorem State.transmit_port (acts : List TxAction) : (s.transmit acts).port = s.port := rfl
@[simp] theorem State.transmit_inbox (acts : List TxAction) : (s.transmit acts).inbox = s.inbox := rfl
@[simp] theorem State.transmit_msg (acts : List TxAction) : (s.transmit acts).msg = s.msg := rfl
@[simp] theorem State.transmit_cs (acts : List TxAction) : (s.transmit acts).cs = s.cs := rfl
@[simp] theorem State.transmit_tx (acts : List TxAction) : (s.transmit acts).tx = s.tx ++ acts := rfl
@[simp] theorem State.transmit_ghost (acts : List TxAction) : (s.transmit acts).ghost = s.ghost := rfl
@[simp] theorem State.transmit_hung (acts : List TxAction) : (s.transmit acts).hung = s.hung := rfl

@[simp] theorem State.record_cfg (g : List GhostEvent) : (s.record g).cfg = s.cfg := rfl
@[simp] theorem State.record_parser (g : List GhostEvent) : (s.record g).parser = s.parser := rfl
@[simp] theorem State.record_arb (g : List GhostEvent) : (s.record g).arb = s.arb := rfl
@[simp] theorem State.record_port (g : List GhostEvent) : (s.record g).port = s.port := rfl
@[simp] theorem State.record_inbox (g : List GhostEvent) : (s.record g).inbox = s.inbox := rfl
@[simp] theorem State.record_msg (g : List GhostEvent) : (s.record g).msg = s.msg := rfl
@[simp] theorem State.record_cs (g : List GhostEvent) : (s.record g).cs = s.cs := rfl
@[simp] theorem State.record_tx (g : List GhostEvent) : (s.record g).tx = s.tx := rfl
@[simp] theorem State.record_ghost (g : List GhostEvent) : (s.record g).ghost = s.ghost ++ g := rfl
@[simp] theorem State.record_hung (g : List GhostEvent) : (s.record g).hung = s.hung := rfl

@[simp] theorem State.hang_cfg : s.hang.cfg = s.cfg := rfl
@[simp] theorem State.hang_parser : s.hang.parser = s.parser := rfl
@[simp] theorem State.hang_arb : s.hang.arb = s.arb := rfl
@[simp] theorem State.hang_port : s.hang.port = s.port := rfl
@[simp] theorem State.hang_inbox : s.hang.inbox = s.inbox := rfl
@[simp] theorem State.hang_msg : s.hang.msg = s.msg := rfl
@[simp] theorem State.hang_cs : s.hang.cs = s.cs := rfl
@[simp] theorem State.hang_tx : s.hang.tx = s.tx := rfl
@[simp] theorem State.hang_ghost : s.hang.ghost = s.ghost := rfl
@[simp] theorem State.hang_hung : s.hang.hung = true := rfl

@[simp] theorem latchCall_cfg (rest : List Event) (p : Port) : (latchCall s rest p).cfg = s.cfg := rfl
@[simp] theorem latchCall_parser (rest : List Event) (p : Port) : (latchCall s rest p).parser = s.parser := rfl
@[simp] theorem latchCall_arb (rest : List Event) (p : Port) : (latchCall s rest p).arb = s.arb := rfl
@[simp] theorem latchCall_port (rest : List Event) (p : Port) : (latchCall s rest p).port = p := rfl
@[simp] theorem latchCall_inbox (rest : List Event) (p : Port) : (latchCall s rest p).inbox = rest := rfl
@[simp] theorem latchCall_msg (rest : List Event) (p : Port) : (latchCall s rest p).msg = none := rfl
@[simp] theorem latchCall_cs (rest : List Event) (p : Port) : (latchCall s rest p).cs = none := rfl
@[simp] theorem latchCall_tx (rest : List Event) (p : Port) : (latchCall s rest p).tx = s.tx := rfl
@[simp] theorem latchCall_ghost (rest : List Event) (p : Port) : (latchCall s rest p).ghost = s.ghost := rfl
@[simp] theorem latchCall_hung (rest : List Event) (p : Port) : (latchCall s rest p).hung = s.hung := rfl

@[simp] theorem admitted_cfg : (admitted s).cfg = s.cfg := rfl
@[simp] theorem admitted_parser : (admitted s).parser = s.parser := rfl
@[simp] theorem admitted_arb : (admitted s).arb = s.arb := rfl
@[simp] theorem admitted_port : (admitted s).port = s.port := rfl
@[simp] theorem admitted_msg : (admitted s).msg = s.msg := rfl
@[simp] theorem admitted_cs : (admitted s).cs = s.cs := rfl
@[simp] theorem admitted_tx : (admitted s).tx = s.tx := rfl
@[simp] theorem admitted_ghost : (admitted s).ghost = s.ghost := rfl
@[simp] theorem admitted_hung : (admitted s).hung = s.hung := rfl

@[simp] theorem powerOnReset_cfg (rest : List Event) (t : Nat) : (powerOnReset s rest t).cfg = s.cfg := rfl
@[simp] theorem powerOnReset_parser (rest : List Event) (t : Nat) : (powerOnReset s rest t).parser = ParserRegs.reset := rfl
@[simp] theorem powerOnReset_arb (rest : List Event) (t : Nat) : (powerOnReset s rest t).arb = ArbRegs.reset s.cfg.timeWidth t := rfl
@[simp] theorem powerOnReset_inbox (rest : List Event) (t : Nat) : (powerOnReset s rest t).inbox = rest := rfl
@[simp] theorem powerOnReset_msg (rest : List Event) (t : Nat) : (powerOnReset s rest t).msg = none := rfl
@[simp] theorem powerOnReset_cs (rest : List Event) (t : Nat) : (powerOnReset s rest t).cs = none := rfl
@[simp] theorem powerOnReset_tx (rest : List Event) (t : Nat) : (powerOnReset s rest t).tx = s.tx := rfl
@[simp] theorem powerOnReset_ghost (rest : List Event) (t : Nat) : (powerOnReset s rest t).ghost = s.ghost := rfl
@[simp] theorem powerOnReset_hung (rest : List Event) (t : Nat) : (powerOnReset s rest t).hung = false := rfl

end Sys2Proof.Machine
end

