-- ==== Sys2Proof/Laws/Exec.lean ====
section
/-! SUPPORT. One equation per meaning, and once for all operations what `exec` can answer: the lemmas later proofs
cite instead of unfolding a meaning. -/

namespace Sys2Proof.Machine

/-! Equations. -/

/-- PARSE of one byte, field by field. -/
theorem parseByte_eq (b : Byte) (s : State) :
    parseByte b s =
      { s with
        parser := (parseRegs s.cfg b s.parser).1
        msg := emitTest (parseRegs s.cfg b s.parser).1
        ghost := s.ghost ++ violations (parseRegs s.cfg b s.parser).2 } := rfl

theorem exec_parse (b : Byte) (s : State) : exec (.parse b) s = .next (parseByte b s) := rfl

theorem preset_eq_reset (p : ParserRegs) : preset p = ParserRegs.reset := rfl

/-- RECV with a byte: PARSE, and on an emission PRESET and the turn snapped. -/
theorem recvByte_eq (b : Byte) (s : State) :
    recvByte b s =
      match emitTest (parseRegs s.cfg b s.parser).1 with
      | some m =>
        { parseByte b s with
          parser := ParserRegs.reset
          arb := { s.arb with turn := slotTurn m.address, last := truncTime s.cfg.timeWidth s.port.now, idle := false } }
      | none => { parseByte b s with arb := busActivity s.cfg s.port.now s.arb } := by
  have h : (parseByte b (s.withArb (busActivity s.cfg s.port.now s.arb))).msg
      = emitTest (parseRegs s.cfg b s.parser).1 := rfl
  simp only [recvByte, h]
  cases emitTest (parseRegs s.cfg b s.parser).1 <;> rfl

/-- RECV with no byte when at least one whole slot period has passed. -/
theorem recvIdle_advances {s : State} (h1 : 1 ≤ s.cfg.cycleUs)
    (h : grace s.cfg s.arb.idle + s.cfg.cycleUs ≤ elapsed s.cfg.timeWidth s.port.now s.arb.last) :
    recvIdle s =
      { s with
        parser := ParserRegs.reset
        arb := { s.arb with
          turn := turnPlus s.arb.turn
            ((elapsed s.cfg.timeWidth s.port.now s.arb.last - grace s.cfg s.arb.idle) / s.cfg.cycleUs)
          last := truncTime s.cfg.timeWidth s.port.now
          idle := true }
        msg := none
        ghost := s.ghost ++ [.violation .x10] } := by
  simp only [recvIdle, silenceElapsed_eq h1, decide_eq_true h, if_true]
  rfl

/-- RECV with no byte when no whole slot period has passed. -/
theorem recvIdle_quiet {s : State} (h1 : 1 ≤ s.cfg.cycleUs)
    (h : ¬ grace s.cfg s.arb.idle + s.cfg.cycleUs ≤ elapsed s.cfg.timeWidth s.port.now s.arb.last) :
    recvIdle s = { s with msg := none } := by
  simp only [recvIdle, silenceElapsed_eq h1, decide_eq_false h, Bool.false_eq_true, if_false]
  rfl

/-- The silence rule under any configuration: an advance by some k, or nothing. -/
theorem recvIdle_cases (s : State) :
    (∃ k, recvIdle s = (advance s.port.now k s).withMsg none ∧
      grace s.cfg s.arb.idle + s.cfg.cycleUs ≤ elapsed s.cfg.timeWidth s.port.now s.arb.last ∧
      k = (elapsed s.cfg.timeWidth s.port.now s.arb.last - grace s.cfg s.arb.idle) / s.cfg.cycleUs) ∨
    recvIdle s = s.withMsg none := by
  simp only [recvIdle]
  split
  · rename_i h
    simp only [silenceElapsed, Bool.and_eq_true, decide_eq_true_eq] at h
    exact .inl ⟨_, rfl, by omega, rfl⟩
  · exact .inr rfl

/-- SEND where the transport completes. -/
theorem exec_send {s : State} (h : s.port.txStall = none) : exec .send s = .next (sendFrame s) := by
  simp [exec, execSend, h]

/-- SEND where the transport stops after `k` byte writes. -/
theorem exec_send_stalled {s : State} {k : Nat} (h : s.port.txStall = some k) :
    exec .send s = .next (hangInSend k s) := by
  simp [exec, execSend, h]

/-- The state inside a hung SEND, field by field. -/
theorem hangInSend_eq (k : Nat) (s : State) :
    hangInSend k s =
      { s with
        tx := s.tx ++ stalledActions s.port.payload k
        arb := { s.arb with dir := .tx }
        ghost := s.ghost ++ sendGhost s.cfg s.arb.turn
        hung := true } := rfl

/-! What an operation can answer. -/

/-- The byte the Parser consumes in a wire token. -/
def tokenByte : Instr → Option Byte
  | .frameStart => some colon
  | .fieldA => some letA
  | .fieldV => some letV
  | .fieldT => some letT
  | .fieldB => some letB
  | .fieldUnknown letter => some letter
  | .separatorSp => some sp
  | .checksumStart => some bar
  | .frameEnd => some nl
  | .checksumCr => some cr
  | .nop => none
  | .parse _ => none
  | .preset => none
  | .canSend => none
  | .send => none
  | .recvByte _ => none
  | .recvIdle => none
  | .reserved110 => none
  | .reserved111 => none

/-- A token that is decoded from a byte consumes that byte. -/
theorem tokenByte_of_decodeWire {b : Byte} {i : Instr} (h : decodeWire b = .ok i) : tokenByte i = some b := by
  unfold decodeWire at h
  iterate 10 (split at h; · injection h with h; subst h; first | rfl | (subst b; rfl))
  cases h

/-- The only rejection names the byte itself. -/
theorem decodeWire_error {b x : Byte} (h : decodeWire b = .error (.notAToken x)) : x = b := by
  unfold decodeWire at h
  repeat' split at h
  all_goals cases h
  rfl

/-- Everything an operation can do when it answers a next state. -/
theorem exec_next_cases {i : Instr} {s s' : State} (h : exec i s = .next s') :
    (i = .nop ∧ s' = s) ∨
    (∃ b, (i = .parse b ∨ tokenByte i = some b) ∧ s' = parseByte b s) ∨
    (i = .preset ∧ s' = s.withParser ParserRegs.reset) ∨
    (i = .canSend ∧ s' = s.withCs (canSend s.cfg s.arb.turn)) ∨
    (i = .send ∧ s.port.txStall = none ∧ s' = sendFrame s) ∨
    (∃ k, i = .send ∧ s.port.txStall = some k ∧ s' = hangInSend k s) ∨
    (∃ b, i = .recvByte b ∧ s' = recvByte b s) ∨
    (i = .recvIdle ∧ s' = recvIdle s) := by
  cases i with
  | nop => exact .inl ⟨rfl, by injection h with h; exact h.symm⟩
  | parse b => exact .inr (.inl ⟨b, .inl rfl, by injection h with h; exact h.symm⟩)
  | preset => exact .inr (.inr (.inl ⟨rfl, by injection h with h; exact h.symm⟩))
  | canSend => exact .inr (.inr (.inr (.inl ⟨rfl, by injection h with h; exact h.symm⟩)))
  | send =>
    simp only [exec, execSend] at h
    split at h
    · exact .inr (.inr (.inr (.inr (.inl ⟨rfl, by assumption, by injection h with h; exact h.symm⟩))))
    · exact .inr (.inr (.inr (.inr (.inr (.inl ⟨_, rfl, by assumption, by injection h with h; exact h.symm⟩)))))
  | recvByte b =>
    exact .inr (.inr (.inr (.inr (.inr (.inr (.inl ⟨b, rfl, by injection h with h; exact h.symm⟩))))))
  | recvIdle =>
    exact .inr (.inr (.inr (.inr (.inr (.inr (.inr ⟨rfl, by injection h with h; exact h.symm⟩))))))
  | reserved110 => cases h
  | reserved111 => cases h
  | frameStart => exact .inr (.inl ⟨_, .inr rfl, by injection h with h; exact h.symm⟩)
  | fieldA => exact .inr (.inl ⟨_, .inr rfl, by injection h with h; exact h.symm⟩)
  | fieldV => exact .inr (.inl ⟨_, .inr rfl, by injection h with h; exact h.symm⟩)
  | fieldT => exact .inr (.inl ⟨_, .inr rfl, by injection h with h; exact h.symm⟩)
  | fieldB => exact .inr (.inl ⟨_, .inr rfl, by injection h with h; exact h.symm⟩)
  | fieldUnknown letter => exact .inr (.inl ⟨_, .inr rfl, by injection h with h; exact h.symm⟩)
  | separatorSp => exact .inr (.inl ⟨_, .inr rfl, by injection h with h; exact h.symm⟩)
  | checksumStart => exact .inr (.inl ⟨_, .inr rfl, by injection h with h; exact h.symm⟩)
  | frameEnd => exact .inr (.inl ⟨_, .inr rfl, by injection h with h; exact h.symm⟩)
  | checksumCr => exact .inr (.inl ⟨_, .inr rfl, by injection h with h; exact h.symm⟩)

/-- No operation ends in a fault. -/
theorem exec_ne_fault (i : Instr) (s : State) (f : Fault) : exec i s ≠ .fault f := by
  cases i with
  | send =>
    simp only [exec, execSend]
    split <;> simp
  | _ => simp [exec, execNop, execParse, execPreset, execCanSend, execRecvByte, execRecvIdle, execReserved110,
      execReserved111, execFrameStart, execFieldA, execFieldV, execFieldT, execFieldB, execFieldUnknown,
      execSeparatorSp, execChecksumStart, execFrameEnd, execChecksumCr]

/-- An operation that is refused. -/
theorem exec_refused {i : Instr} {s : State} {r : Refusal} (h : exec i s = .refused r) :
    (i = .reserved110 ∧ r = .reservedOp 6#3) ∨ (i = .reserved111 ∧ r = .reservedOp 7#3) := by
  cases i with
  | send =>
    simp only [exec, execSend] at h
    split at h <;> cases h
  | reserved110 =>
    cases h
    exact .inl ⟨rfl, rfl⟩
  | reserved111 =>
    cases h
    exact .inr ⟨rfl, rfl⟩
  | _ => cases h

end Sys2Proof.Machine
end

