-- ==== Sys2Proof/Laws/Parser.lean ====
section
/-! SUPPORT. What the shared operations of the Parser can answer, what a step can do, that PARSE keeps the Parser's
invariant, and how PARSE and the CRC run over a joined byte sequence. -/

namespace Sys2Proof.Machine

/-! The shared operations, each with everything it can answer. -/

/-- A digit: X3 on a fifth, shifted in otherwise. -/
theorem decDigit_cases (b : Byte) (p : ParserRegs) :
    (p.cnt = 4#4 ∧ decDigit b p = gotoInvalid .x3 p) ∨
    (p.cnt ≠ 4#4 ∧ decDigit b p = ruleOk { p with acc := decShift p.acc b, cnt := bumpCnt p.cnt }) := by
  unfold decDigit
  split
  · exact .inl ⟨by assumption, rfl⟩
  · exact .inr ⟨by assumption, rfl⟩

/-- A terminator: X4 with no digit, the commit otherwise. -/
theorem decTerminator_cases (commit : ParserRegs → ParserRegs) (b : Byte) (p : ParserRegs) :
    (p.cnt = 0#4 ∧ decTerminator commit b p = gotoInvalid .x4 p) ∨
    (p.cnt ≠ 0#4 ∧ decTerminator commit b p =
      ruleOk (gotoState (if b = sp then .idle else .checksum) (accReset (commit p)))) := by
  unfold decTerminator
  split
  · exact .inl ⟨by assumption, rfl⟩
  · exact .inr ⟨by assumption, rfl⟩

/-- A minus: the sign flag before any digit, X5 otherwise. -/
theorem tempMinus_cases (p : ParserRegs) :
    (p.cnt = 0#4 ∧ p.neg = false ∧ tempMinus p = ruleOk { p with neg := true }) ∨
    (¬ (p.cnt = 0#4 ∧ p.neg = false) ∧ tempMinus p = gotoInvalid .x5 p) := by
  unfold tempMinus
  split
  · rename_i h
    simp only [minusAllowed, Bool.and_eq_true, beq_iff_eq, Bool.not_eq_true'] at h
    exact .inl ⟨h.1, h.2, rfl⟩
  · rename_i h
    simp only [minusAllowed, Bool.and_eq_true, beq_iff_eq, Bool.not_eq_true'] at h
    exact .inr ⟨h, rfl⟩

/-- The end of a frame: X8 on the wrong length, X9 on a CRC the policy rejects, Initial otherwise. -/
theorem checksumEnd_cases (policy : ChecksumPolicy) (p : ParserRegs) :
    (p.cnt ≠ 8#4 ∧ checksumEnd policy p = gotoInvalid .x8 p) ∨
    (p.cnt = 8#4 ∧ checksumOk policy p = true ∧ checksumEnd policy p = ruleOk (gotoState .initial p)) ∨
    (p.cnt = 8#4 ∧ checksumOk policy p = false ∧ checksumEnd policy p = gotoInvalid .x9 p) := by
  unfold checksumEnd
  split
  · exact .inl ⟨by assumption, rfl⟩
  · rename_i h
    split
    · exact .inr (.inl ⟨by simpa using h, by assumption, rfl⟩)
    · exact .inr (.inr ⟨by simpa using h, by simpa using ‹¬ checksumOk policy p = true›, rfl⟩)

theorem checksumOk_iff (policy : ChecksumPolicy) (p : ParserRegs) :
    checksumOk policy p = true ↔ policy = .acceptRegardless ∨ p.acc = crcFinal p.crc := by
  cases policy <;> simp [checksumOk, checksumMatch]

/-- No Message, exactly outside Initial with an address recorded. -/
theorem emitTest_eq_none (p : ParserRegs) : emitTest p = none ↔ (p.state = .initial → p.addrV = false) := by
  simp [emitTest]

theorem emitTest_eq_some (p : ParserRegs) (m : Message) :
    emitTest p = some m ↔ p.state = .initial ∧ p.addrV = true ∧ m = heldMessage p := by
  simp [emitTest, and_assoc, eq_comm (a := heldMessage p)]

/-! What a step can do. -/

/-- Outside a hung SEND every pending move can be made. -/
theorem admitted_of_not_hung {s : State} (h : s.hung = false) : admitted s = s := by
  cases s
  simp only at h
  subst h
  rfl

/-- Inside a hung SEND the moves before the power-on reset are never made. -/
theorem admitted_inbox_of_hung {s : State} (h : s.hung = true) :
    (admitted s).inbox = s.inbox.dropWhile fun e => !e.isPowerOn := by simp [admitted, h]

/-- When the block is stuck. -/
theorem blocked_iff (s : State) :
    blocked s = true ↔ s.hung = true ∧ s.inbox ≠ [] ∧ ∀ e ∈ s.inbox, e.isPowerOn = false := by
  simp [blocked, and_assoc]

theorem blocked_of_not_hung {s : State} (h : s.hung = false) : blocked s = false := by simp [blocked, h]

/-- What the first reset leaves of a list of moves. -/
theorem dropWhile_notPowerOn (l : List Event) :
    (l.dropWhile (fun e => !e.isPowerOn) = [] ∧ ∀ e ∈ l, e.isPowerOn = false) ∨
    ∃ pre t rest, l = pre ++ .powerOn t :: rest ∧ (∀ e ∈ pre, e.isPowerOn = false) ∧
      l.dropWhile (fun e => !e.isPowerOn) = .powerOn t :: rest := by
  induction l with
  | nil => exact .inl ⟨rfl, by simp⟩
  | cons e l ih =>
    cases e with
    | powerOn t => exact .inr ⟨[], t, l, rfl, by simp, rfl⟩
    | call w now payload stall =>
      rcases ih with ⟨h1, h2⟩ | ⟨pre, t, rest, rfl, h2, h3⟩
      · exact .inl ⟨h1, by simpa [Event.isPowerOn] using h2⟩
      · exact .inr ⟨_ :: pre, t, rest, rfl, by simpa [Event.isPowerOn] using h2, h3⟩
    | wire b =>
      rcases ih with ⟨h1, h2⟩ | ⟨pre, t, rest, rfl, h2, h3⟩
      · exact .inl ⟨h1, by simpa [Event.isPowerOn] using h2⟩
      · exact .inr ⟨_ :: pre, t, rest, rfl, by simpa [Event.isPowerOn] using h2, h3⟩

/-- A step inside no hung SEND. -/
theorem step_of_not_hung {s : State} (h : s.hung = false) :
    step s = match nextOperation s with
      | some (i, t) => exec i t
      | none => .next (withoutOperation s) := by
  simp only [step, blocked_of_not_hung h, admitted_of_not_hung h, Bool.false_eq_true, if_false] <;> rfl

/-- A power-on reset is taken inside a hung SEND too, whatever calls stand before it. -/
theorem step_of_hung_powerOn {s : State} {pre rest : List Event} {t : Nat} (h : s.hung = true)
    (hp : ∀ e ∈ pre, e.isPowerOn = false) (hi : s.inbox = pre ++ .powerOn t :: rest) :
    step s = .next (powerOnReset s rest t) := by
  have hb : blocked s = false := by simp [blocked, hi, Event.isPowerOn]
  have hd : (admitted s).inbox = .powerOn t :: rest := by
    rw [admitted_inbox_of_hung h, hi, List.dropWhile_append_of_pos (by simpa using hp)]
    rfl
  simp only [step, hb, Bool.false_eq_true, if_false, nextOperation, withoutOperation, hd]
  rfl

/-- A step that answers a next state ran an operation outside a hung SEND, reset the block, or held its state. -/
theorem step_next_cases {s s' : State} (h : step s = .next s') :
    (∃ i t, s.hung = false ∧ nextOperation s = some (i, t) ∧ exec i t = .next s') ∨
    (∃ pre t rest, s.inbox = pre ++ .powerOn t :: rest ∧ (s.hung = false → pre = []) ∧
      s' = powerOnReset s rest t) ∨
    s' = s := by
  cases hh : s.hung with
  | false =>
    rw [step_of_not_hung hh] at h
    split at h
    · exact .inl ⟨_, _, rfl, by assumption, h⟩
    · injection h with h
      unfold withoutOperation at h
      split at h
      · exact .inr (.inl ⟨[], _, _, by assumption, fun _ => rfl, h.symm⟩)
      · exact .inr (.inr h.symm)
  | true =>
    rcases dropWhile_notPowerOn s.inbox with ⟨h1, h2⟩ | ⟨pre, t, rest, hi, hp, _⟩
    · refine .inr (.inr ?_)
      by_cases hn : s.inbox = []
      · have ha : admitted s = s := by cases s; simp only at hn; subst hn; simp [admitted]
        have hb : blocked s = false := by simp [blocked, hn]
        simp only [step, hb, Bool.false_eq_true, if_false, ha, nextOperation, withoutOperation, hn] at h
        injection h with h
        exact h.symm
      · have hb : blocked s = true := (blocked_iff s).mpr ⟨hh, hn, h2⟩
        simp only [step, hb, if_true] at h
        cases h
    · rw [step_of_hung_powerOn hh hp hi] at h
      injection h with h
      exact .inr (.inl ⟨pre, t, rest, hi, by simp, h.symm⟩)

/-- A step that ends in a fault is stuck inside a hung SEND. -/
theorem step_fault_cases {s : State} {f : Fault} (h : step s = .fault f) :
    f = .transportStalled ∧ s.hung = true ∧ s.inbox ≠ [] ∧ ∀ e ∈ s.inbox, e.isPowerOn = false := by
  unfold step at h
  split at h
  · rename_i hb
    injection h with h
    exact ⟨h.symm, (blocked_iff s).mp hb⟩
  · split at h
    · exact absurd h (exec_ne_fault _ _ _)
    · cases h

/-- The operation taken comes from the oldest pending move, and runs with its side operands latched. -/
theorem nextOperation_cases {s t : State} {i : Instr} (h : nextOperation s = some (i, t)) :
    ∃ e rest p, s.inbox = e :: rest ∧ t = latchCall s rest p ∧
      ((∃ w now payload stall, e = .call w now payload stall ∧ i = decodeCommand w ∧ p = ⟨now, payload, stall⟩) ∨
        ∃ b, e = .wire b ∧ i = wireInstr b ∧ p = s.port) := by
  unfold nextOperation at h
  split at h
  · cases h
  · simp at h
    obtain ⟨rfl, rfl⟩ := h
    exact ⟨_, _, _, by assumption, rfl, .inl ⟨_, _, _, _, rfl, rfl, rfl⟩⟩
  · simp at h
    obtain ⟨rfl, rfl⟩ := h
    exact ⟨_, _, _, by assumption, rfl, .inr ⟨_, rfl, rfl, rfl⟩⟩
  · cases h

/-! PARSE keeps the Parser's invariant. -/

theorem foldByte_inv {cfg : Config} {b : Byte} {p : ParserRegs} (h : p.inv) : (foldByte cfg b p).inv := h

theorem ParserRegs.reset_inv : ParserRegs.reset.inv := by decide

theorem ArbRegs.reset_inv (cfg : Config) (t : Nat) : (ArbRegs.reset cfg.timeWidth t).inv cfg :=
  ⟨by show -1 ≤ (31#5).toInt; decide, by show (31#5).toInt ≤ 15; decide, Nat.mod_lt _ (Nat.two_pow_pos _)⟩

/-- A digit keeps the accumulator below ten to the power of the count. -/
theorem decDigit_inv {b : Byte} {p : ParserRegs} (hb : isDec b = true) (h : p.inv)
    (hs : p.state = .voltage ∨ p.state = .temperature) : (decDigit b p).1.inv := by
  obtain ⟨h1, h2, h3, h4⟩ := h
  unfold decDigit
  split
  · exact ⟨by simp [gotoInvalid, decimalInv], by simp [gotoInvalid, signInv], h3, h4⟩
  · rename_i hc
    refine ⟨?_, h2, h3, h4⟩
    intro _
    obtain ⟨a, c⟩ := h1 hs
    have hd := decval_lt hb
    have hc4 : p.cnt.toNat ≠ 4 := fun e => hc (BitVec.eq_of_toNat_eq (by simpa using e))
    simp only [ruleOk, bumpCnt_toNat]
    have hp : p.acc.toNat * 10 + decval b < 10 ^ (p.cnt.toNat + 1) := by rw [pow_succ]; omega
    have hp2 : 10 ^ (p.cnt.toNat + 1) ≤ 10 ^ 4 := Nat.pow_le_pow_right (by decide) (by omega)
    rw [decShift_toNat (by omega), Nat.min_eq_right (by omega)]
    exact ⟨by omega, hp⟩

/-- A violation clears no field and leaves no decimal state. -/
theorem gotoInvalid_inv {p : ParserRegs} (h : p.inv) (x : Violation) : (gotoInvalid x p).1.inv :=
  ⟨by simp [gotoInvalid, decimalInv], by simp [gotoInvalid, signInv], h.2.2.1, h.2.2.2⟩

/-- A terminator keeps it where the commit keeps the fields legal. -/
theorem decTerminator_inv {b : Byte} {p : ParserRegs} {c : ParserRegs → ParserRegs} (h : p.inv)
    (hc : fieldInv (c p) ∧ absentInv (c p)) : (decTerminator c b p).1.inv := by
  unfold decTerminator
  split
  · exact gotoInvalid_inv h _
  · refine ⟨?_, by simp [ruleOk, gotoState, accReset, signInv], hc.1, hc.2⟩
    simp only [ruleOk, gotoState, accReset]
    split <;> simp

/-- Every state rule keeps it, run in its own state. -/
theorem stateRule_inv {cfg : Config} {b : Byte} {p : ParserRegs} (h : p.inv) : (stateRule cfg p.state b p).1.inv := by
  obtain ⟨h1, h2, h3, h4⟩ := id h
  have bad := gotoInvalid_inv h
  have mv : ∀ q, q ≠ .voltage → q ≠ .temperature → p.state ≠ .temperature → p.state ≠ .invalid →
      (gotoState q p).inv := by
    intro q a1 a2 a3 a4
    refine ⟨?_, ?_, h3, h4⟩
    · intro e; simp [gotoState, a1, a2] at e
    · intro e; have := h2 e; simp [a3, a4] at this
  have mr : ∀ q, (gotoState q (accReset p)).inv := fun q =>
    ⟨by simp [gotoState, accReset, decimalInv], by simp [gotoState, accReset, signInv], h3, h4⟩
  cases hs : p.state <;> simp only [stateRule]
  · unfold stepInitial; split
    · exact mv _ (by decide) (by decide) (by simp [hs]) (by simp [hs])
    · exact h
  · unfold stepIdle; repeat' split
    all_goals first
      | exact mr _
      | exact h
      | exact bad _
      | exact mv _ (by decide) (by decide) (by simp [hs]) (by simp [hs])
  · unfold stepSkipping; repeat' split
    all_goals first
      | exact mr _
      | exact h
      | exact bad _
      | exact mv _ (by decide) (by decide) (by simp [hs]) (by simp [hs])
  · exact h
  · unfold stepAddress; split
    · refine ⟨?_, ?_, h3, ?_⟩
      · simp [ruleOk, gotoState, addrSet]
      · intro e; have := h2 e; simp [hs] at this
      · exact ⟨by simp [ruleOk, gotoState, addrSet], h4.2⟩
    · exact bad _
  · unfold stepVoltage; repeat' split
    · exact decDigit_inv (by assumption) h (.inl hs)
    · refine decTerminator_inv h ⟨⟨?_, h3.2⟩, ?_⟩
      · intro _
        obtain ⟨a, c⟩ := h1 (.inl hs)
        have : 10 ^ p.cnt.toNat ≤ 10 ^ 4 := Nat.pow_le_pow_right (by decide) a
        simp [commitVolt]; omega
      · exact ⟨h4.1, by simp [commitVolt], h4.2.2⟩
    · exact bad _
  · unfold stepTemperature; repeat' split
    · unfold tempMinus; split
      · exact ⟨h1, fun _ => .inl hs, h3, h4⟩
      · exact bad _
    · exact decDigit_inv (by assumption) h (.inr hs)
    · refine decTerminator_inv h ⟨⟨h3.1, ?_, h3.2.2⟩, ?_⟩
      · intro _
        obtain ⟨a, c⟩ := h1 (.inr hs)
        have : 10 ^ p.cnt.toNat ≤ 10 ^ 4 := Nat.pow_le_pow_right (by decide) a
        have : (BitVec.ofInt 15 (signedAcc p)).toInt = signedAcc p := by
          simp only [signedAcc]; split <;> simp [BitVec.toInt_ofInt, Int.bmod] <;> omega
        simp only [commitTemp]
        rw [this, signedAcc]
        split <;> omega
      · exact ⟨h4.1, h4.2.1, by simp [commitTemp], h4.2.2.2⟩
    · exact bad _
  · unfold stepButton; split
    · rename_i hb; rw [isBtn_iff] at hb
      refine ⟨?_, ?_, ⟨h3.1, h3.2.1, ?_⟩, ?_⟩
      · simp [ruleOk, gotoState, buttonSet]
      · intro e; have := h2 e; simp [hs] at this
      · intro _; simp [ruleOk, gotoState, buttonSet, decval]; omega
      · exact ⟨h4.1, h4.2.1, h4.2.2.1, by simp [ruleOk, gotoState, buttonSet]⟩
    · exact bad _
  · unfold stepChecksum; repeat' split
    · refine ⟨?_, h2, h3, h4⟩
      intro e; simp [ruleOk, hexDigit, hs] at e
    · exact h
    · unfold checksumEnd; repeat' split
      · exact bad _
      · exact mv _ (by decide) (by decide) (by simp [hs]) (by simp [hs])
      · exact bad _
    · exact bad _

/-- PARSE keeps it. -/
theorem parseRegs_inv {cfg : Config} {b : Byte} {p : ParserRegs} (h : p.inv) : (parseRegs cfg b p).1.inv :=
  stateRule_inv (p := foldByte cfg b p) h

/-! Byte sequences. -/

theorem parseAll_append (cfg : Config) (p : ParserRegs) (u v : List Byte) :
    parseAll cfg p (u ++ v) = parseAll cfg (parseAll cfg p u) v := by
  induction u generalizing p with
  | nil => rfl
  | cons b u ih => exact ih _

theorem messages_append (cfg : Config) (p : ParserRegs) (u v : List Byte) :
    messages cfg p (u ++ v) = messages cfg p u ++ messages cfg (parseAll cfg p u) v := by
  induction u generalizing p with
  | nil => rfl
  | cons b u ih => simp only [List.cons_append, messages, parseAll, ih]

theorem messages_length (cfg : Config) (p : ParserRegs) (u : List Byte) : (messages cfg p u).length = u.length := by
  induction u generalizing p with
  | nil => rfl
  | cons b u ih => simp only [messages, List.length_cons, ih]

theorem crcFoldBytes_append (r : Word32) (u v : List Byte) :
    crcFoldBytes r (u ++ v) = crcFoldBytes (crcFoldBytes r u) v := by
  induction u generalizing r with
  | nil => rfl
  | cons b u ih => exact ih _

end Sys2Proof.Machine
end

