-- ==== Sys2Proof/Laws/PerInstr.lean ====
section
/-! SUPPORT. Statements made per operation. The family TableRow: the word the encoder writes for a well-formed operation
has the width, the match bits under the mask, of the operation's row of spec/opcode_table.json. -/

namespace Sys2Proof.Laws

open Sys2Proof.Machine

/-- A row of spec/opcode_table.json: the width of its format, and its match and mask. -/
structure Row where
  nbits : Nat
  pattern : Nat
  mask : Nat
  deriving DecidableEq, Repr

/-- The row of each operation, copied from spec/opcode_table.json. -/
def row : Instr → Row
  | .nop => ⟨16, 0x0000, 0x0007⟩
  | .parse _ => ⟨16, 0x0001, 0x0007⟩
  | .preset => ⟨16, 0x0002, 0x0007⟩
  | .canSend => ⟨16, 0x0003, 0x0007⟩
  | .send => ⟨16, 0x0004, 0x0007⟩
  | .recvByte _ => ⟨16, 0x000d, 0x000f⟩
  | .recvIdle => ⟨16, 0x0005, 0x000f⟩
  | .reserved110 => ⟨16, 0x0006, 0x0007⟩
  | .reserved111 => ⟨16, 0x0007, 0x0007⟩
  | .frameStart => ⟨8, 0x3a, 0xff⟩
  | .fieldA => ⟨8, 0x41, 0xff⟩
  | .fieldV => ⟨8, 0x56, 0xff⟩
  | .fieldT => ⟨8, 0x54, 0xff⟩
  | .fieldB => ⟨8, 0x42, 0xff⟩
  | .fieldUnknown _ => ⟨8, 0x40, 0xe0⟩
  | .separatorSp => ⟨8, 0x20, 0xff⟩
  | .checksumStart => ⟨8, 0x7c, 0xff⟩
  | .frameEnd => ⟨8, 0x0a, 0xff⟩
  | .checksumCr => ⟨8, 0x0d, 0xff⟩

/-- The width and the value of an encoding. -/
def wordOf : Encoded → Nat × Nat
  | .command w => (16, w.toNat)
  | .wire b => (8, b.toNat)

/-- The encoding of `i` has the width `r` names and its match bits under its mask. -/
def Row.fits (r : Row) (e : Encoded) : Bool :=
  decide ((wordOf e).1 = r.nbits) && decide (Nat.land (wordOf e).2 r.mask = r.pattern)

/-- A well-formed operation is written as its row says. -/
def TableRow.Statement (i : Instr) : Prop := i.wellFormed = true → (row i).fits (encode i) = true

theorem TableRow.nop : TableRow.Statement .nop := by
  intro _
  decide

/-- Every byte operand of a command word leaves the bits the row fixes. -/
theorem TableRow.parse (b : Byte) : TableRow.Statement (.parse b) := by
  intro _
  revert b
  decide +kernel

theorem TableRow.preset : TableRow.Statement .preset := by
  intro _
  decide

theorem TableRow.canSend : TableRow.Statement .canSend := by
  intro _
  decide

theorem TableRow.send : TableRow.Statement .send := by
  intro _
  decide

theorem TableRow.recvByte (b : Byte) : TableRow.Statement (.recvByte b) := by
  intro _
  revert b
  decide +kernel

theorem TableRow.recvIdle : TableRow.Statement .recvIdle := by
  intro _
  decide

theorem TableRow.reserved110 : TableRow.Statement .reserved110 := by
  intro _
  decide

theorem TableRow.reserved111 : TableRow.Statement .reserved111 := by
  intro _
  decide

theorem TableRow.frameStart : TableRow.Statement .frameStart := by
  intro _
  decide

theorem TableRow.fieldA : TableRow.Statement .fieldA := by
  intro _
  decide

theorem TableRow.fieldV : TableRow.Statement .fieldV := by
  intro _
  decide

theorem TableRow.fieldT : TableRow.Statement .fieldT := by
  intro _
  decide

theorem TableRow.fieldB : TableRow.Statement .fieldB := by
  intro _
  decide

/-- The class UPOTHER lies inside the row, which the table calls a superset. -/
theorem TableRow.fieldUnknown (letter : Byte) : TableRow.Statement (.fieldUnknown letter) := by
  unfold TableRow.Statement
  revert letter
  decide +kernel

theorem TableRow.separatorSp : TableRow.Statement .separatorSp := by
  intro _
  decide

theorem TableRow.checksumStart : TableRow.Statement .checksumStart := by
  intro _
  decide

theorem TableRow.frameEnd : TableRow.Statement .frameEnd := by
  intro _
  decide

theorem TableRow.checksumCr : TableRow.Statement .checksumCr := by
  intro _
  decide

end Sys2Proof.Laws
end

