-- ==== Sys2Proof/Tests/Slice0.lean ====
section
/-! SUPPORT. The model's own tests: ill-formed terms, decoding of words written out from spec/30_encoding.md, vectors of
spec/95_test_vectors.md, and for each statement with hypotheses a state that meets them. -/

namespace Sys2Proof.Tests

open Sys2Proof Sys2Proof.Machine

/-! Helpers. -/

/-- The state after reset with the Parser in `q`. -/
def inState (q : PState) : State := { State.reset with parser := { ParserRegs.reset with state := q } }

/-- The state after reset with the Arbiter's turn, last event and idle flag. -/
def arbAt (turn : Turn) (last : Nat) (idle : Bool) : State :=
  { State.reset with arb := { turn := turn, last := last, idle := idle, dir := .rx } }

/-- The state with the side operand `now` latched. -/
def atTime (now : Nat) (s : State) : State := { s with port := { s.port with now := now } }

/-- The next state, if there is one. -/
def nextOf : Host.Outcome State Fault Refusal → Option State
  | .next s => some s
  | .fault _ => none
  | .refused _ => none

/-- The Parser registers of the next state. -/
def parserOf (o : Host.Outcome State Fault Refusal) : Option ParserRegs := (nextOf o).map fun s => s.parser

/-- The Arbiter registers of the next state. -/
def arbOf (o : Host.Outcome State Fault Refusal) : Option ArbRegs := (nextOf o).map fun s => s.arb

/-- A configuration at the low end of its ranges (00_scope.md R10 to R12). -/
def lowConfig : Config := { Config.vectors with cycleUs := 1, timeWidth := 1, byteTimeUs := 0 }

/-- The configuration of the vectors under REJECT_ON_MISMATCH. -/
def strictConfig : Config := { Config.vectors with policy := .rejectOnMismatch }

/-! WellFormed: an ill-formed term for its check (30_encoding.md R79; opcode_table.json, FIELD_UNKNOWN). -/

theorem test_wellFormed_refuses : Instr.wellFormed (.fieldUnknown 0x40#8) = false ∧
    Instr.wellFormed (.fieldUnknown 0x5B#8) = false ∧ Instr.wellFormed (.fieldUnknown 0x41#8) = false ∧
    Instr.wellFormed (.fieldUnknown 0x42#8) = false ∧ Instr.wellFormed (.fieldUnknown 0x54#8) = false ∧
    Instr.wellFormed (.fieldUnknown 0x56#8) = false ∧ Instr.wellFormed (.fieldUnknown 0x63#8) = false := by decide

/-! Decoding: every constructor by a word written from R90, R91 and R72; 95_test_vectors.md section 5. -/

theorem test_decode_commands : decodeTableWord 16 0b0000000000000000 = some .nop ∧
    decodeTableWord 16 0b0011101000000001 = some (.parse 0x3A#8) ∧
    decodeTableWord 16 0b0000000000000010 = some .preset ∧
    decodeTableWord 16 0b0000000000000011 = some .canSend ∧
    decodeTableWord 16 0b0000000000000100 = some .send ∧
    decodeTableWord 16 0b0011101000001101 = some (.recvByte 0x3A#8) ∧
    decodeTableWord 16 0b0000000000000101 = some .recvIdle ∧
    decodeTableWord 16 0b0000000000000110 = some .reserved110 ∧
    decodeTableWord 16 0b0000000000000111 = some .reserved111 := by decide

/-- The ignored bits at 1, and a byte operand whose top and bottom bits differ. -/
theorem test_decode_ignored_bits : decodeTableWord 16 0x00F0 = some .nop ∧ decodeTableWord 16 0xFFF8 = some .nop ∧
    decodeTableWord 16 0x7F05 = some .recvIdle ∧ decodeTableWord 16 0x80F9 = some (.parse 0x80#8) ∧
    decodeTableWord 16 0x01FD = some (.recvByte 0x01#8) ∧ decodeTableWord 16 0xFFFC = some .send ∧
    decodeTableWord 16 0x000E = some .reserved110 ∧ decodeTableWord 16 0x000F = some .reserved111 := by decide

theorem test_decode_tokens : decodeTableWord 8 0b00111010 = some .frameStart ∧
    decodeTableWord 8 0b01000001 = some .fieldA ∧ decodeTableWord 8 0b01010110 = some .fieldV ∧
    decodeTableWord 8 0b01010100 = some .fieldT ∧ decodeTableWord 8 0b01000010 = some .fieldB ∧
    decodeTableWord 8 0b01000011 = some (.fieldUnknown 0x43#8) ∧
    decodeTableWord 8 0b01011010 = some (.fieldUnknown 0x5A#8) ∧
    decodeTableWord 8 0b00100000 = some .separatorSp ∧ decodeTableWord 8 0b01111100 = some .checksumStart ∧
    decodeTableWord 8 0b00001010 = some .frameEnd ∧ decodeTableWord 8 0b00001101 = some .checksumCr := by decide

/-- Bytes no row stands for: 0x40 and 0x5B to 0x5F of the superset, digits, the minus, lowercase letters. -/
theorem test_decode_rejects : decodeWire 0x40#8 = .error (.notAToken 0x40#8) ∧ decodeTableWord 8 0x40 = none ∧
    decodeTableWord 8 0x5B = none ∧ decodeTableWord 8 0x5F = none ∧ decodeTableWord 8 0x30 = none ∧
    decodeTableWord 8 0x2D = none ∧ decodeTableWord 8 0x61 = none ∧ decodeTableWord 32 0 = none := by decide

/-! The CRC and the frame (95_test_vectors.md section 3). -/

theorem test_crcUpdate : crcUpdate 0x00000000#32 0x01#8 = 0x04c11db7#32 ∧
    crcUpdate 0x00000000#32 0x80#8 = 0x690ce0ee#32 ∧ crcUpdate 0xffffffff#32 0x00#8 = 0x4e08bfb4#32 := by decide +kernel

theorem test_crc32_check_value :
    crc32 [0x31#8, 0x32#8, 0x33#8, 0x34#8, 0x35#8, 0x36#8, 0x37#8, 0x38#8, 0x39#8] = 0x765e7680#32 ∧
    crc32 [] = 0xffffffff#32 := by decide +kernel

theorem test_hex8 : hex8 0x0000abcd#32 = [0x30#8, 0x30#8, 0x30#8, 0x30#8, 0x61#8, 0x62#8, 0x63#8, 0x64#8] := by decide +kernel

theorem test_frame : frame [0x41#8, 0x34#8] = [0x3A#8, 0x41#8, 0x34#8, 0x7C#8, 0x37#8, 0x30#8, 0x36#8, 0x66#8, 0x61#8,
    0x33#8, 0x32#8, 0x36#8, 0x0A#8] := by decide +kernel

/-- Section 5: the `msg` layout of `{3, 1234, -56, -}`, `{10, 0, 0, 5}` and `{1, 9999, -9999, -}`. -/
theorem test_msgBits : msgBits (some ⟨3#4, some 1234#14, some (BitVec.ofInt 15 (-56)), none⟩) = 0x0ff91134a7#40 ∧
    msgBits (some ⟨10#4, some 0#14, some 0#15, some 5#3⟩) = 0xb000100035#40 ∧
    msgBits (some ⟨1#4, some 9999#14, some (BitVec.ofInt 15 (-9999)), none⟩) = 0x0b1e39c3e3#40 := by decide

/-! The operations, one step each (95_test_vectors.md sections 4.1, 6 and 7). -/

/-- A21. -/
theorem test_nop : nextOf (exec .nop (arbAt 9#5 7 true)) = some (arbAt 9#5 7 true) := by decide

/-- T12. -/
theorem test_parse_fourth_digit :
    (parserOf (exec (.parse 0x34#8) { State.reset with
        parser := { ParserRegs.reset with state := .voltage, acc := 123#32, cnt := 3#4 } })).map
      (fun p => (p.state, p.acc, p.cnt)) = some (.voltage, 1234#32, 4#4) := by decide +kernel

/-- T30: the digit count saturates and the accumulator shifts modulo 2^32. -/
theorem test_parse_hex_saturates :
    (parserOf (exec (.parse 0x30#8) { State.reset with
        parser := { ParserRegs.reset with state := .checksum, acc := 0xF1234567#32, cnt := 15#4 } })).map
      (fun p => (p.acc, p.cnt)) = some (0x12345670#32, 15#4) := by decide +kernel

/-- T38. -/
theorem test_preset : parserOf (exec .preset { State.reset with
    parser := ⟨.invalid, 7#32, 3#4, true, 9#32, true, 5#4, true, 1#14, true, 2#15, true, 3#3⟩ }) =
    some ⟨.initial, 0#32, 0#4, false, 0#32, false, 0#4, false, 0#14, false, 0#15, false, 0#3⟩ := by decide

/-- A1 and A2. -/
theorem test_canSend : (nextOf (exec .canSend (arbAt (-1#5) 0 false))).map (fun s => s.cs) = some (some false) ∧
    (nextOf (exec .canSend (arbAt 5#5 0 false))).map (fun s => s.cs) = some (some true) := by decide

/-- A3: out of turn, an empty payload; 11 bytes. -/
theorem test_send_registers : arbOf (exec .send (atTime 500 State.reset)) = some ⟨5#5, 500, false, .rx⟩ ∧
    (nextOf (exec .send (atTime 500 State.reset))).map (fun s => s.ghost) = some [.outOfTurn] := by decide +kernel

theorem test_send_transmits : (nextOf (exec .send (atTime 500 State.reset))).map (fun s => s.tx) = some [.setDir .tx,
    .write 0x3A#8, .write 0x7C#8, .write 0x33#8, .write 0x30#8, .write 0x30#8, .write 0x66#8, .write 0x30#8, .write 0x39#8,
    .write 0x31#8, .write 0x34#8, .write 0x0A#8, .flush, .setDir .rx] := by decide +kernel

/-- A4. -/
theorem test_recvByte_silent : arbOf (exec (.recvByte 0x3A#8) (atTime 10 State.reset)) = some ⟨-1#5, 10, false, .rx⟩ ∧
    (parserOf (exec (.recvByte 0x3A#8) (atTime 10 State.reset))).map (fun p => p.state) = some .idle := by decide +kernel

/-- The state at the end of `frame("A4")`: the digits 706fa326 read, the newline still to come. -/
def beforeNewline : State := { strictState with
    parser := { ParserRegs.reset with state := .checksum, acc := 0x706fa326#32, cnt := 8#4,
                                      crc := 0x706fa326#32 ^^^ 0xffffffff#32, addrV := true, addr := 4#4 } }
where
  strictState : State := { arbAt 2#5 9700 true with cfg := strictConfig }

/-- A5: the Message is returned, the Parser PRESET, the turn snapped. -/
theorem test_recvByte_emits : nextOf (exec (.recvByte 0x0A#8) (atTime 11200 beforeNewline)) =
    some { atTime 11200 beforeNewline with
      parser := ParserRegs.reset, arb := ⟨4#5, 11200, false, .rx⟩, msg := some ⟨4#4, none, none, none⟩ } := by
  decide +kernel

/-- A15, A6, A9: 37 periods, one microsecond short of a period, inside the grace. -/
theorem test_recvIdle_grace : arbOf (exec .recvIdle (atTime 118500 (arbAt (-1#5) 0 false))) = some ⟨4#5, 118500, true, .rx⟩ ∧
    arbOf (exec .recvIdle (atTime 3299 (arbAt (-1#5) 0 false))) = some ⟨-1#5, 0, false, .rx⟩ ∧
    arbOf (exec .recvIdle (atTime 1050 (arbAt 7#5 1000 false))) = some ⟨7#5, 1000, false, .rx⟩ := by decide +kernel

/-- A12, A11, A14: across a wrap of the clock, without the grace, and a whole rotation. -/
theorem test_recvIdle_wraps : arbOf (exec .recvIdle (atTime 3044 (arbAt 14#5 0xffffff00 true))) = some ⟨15#5, 3044, true, .rx⟩ ∧
    arbOf (exec .recvIdle (atTime 7400 (arbAt 3#5 1000 true))) = some ⟨5#5, 7400, true, .rx⟩ ∧
    arbOf (exec .recvIdle (atTime 51200 (arbAt 9#5 0 true))) = some ⟨9#5, 51200, true, .rx⟩ := by decide +kernel

/-- R93. -/
theorem test_reserved : nextOf (exec .reserved110 State.reset) = none ∧ nextOf (exec .reserved111 State.reset) = none := by
  decide

/-- P1 word 1. -/
theorem test_frameStart : (parserOf (exec .frameStart State.reset)).map (fun p => (p.state, p.crc)) =
    some (.idle, 0xfbb8bb46#32) := by decide +kernel

/-- The state after reset with the Parser in `q` and the running CRC `r`. -/
def withCrc (q : PState) (r : Word32) : State := { State.reset with parser := { ParserRegs.reset with state := q, crc := r } }

/-- P1 word 2. -/
theorem test_fieldA : (parserOf (exec .fieldA (withCrc .idle 0xfbb8bb46#32))).map (fun p => (p.state, p.crc)) =
    some (.address, 0x2a0f1da8#32) := by decide +kernel

/-- P1 word 5. -/
theorem test_fieldV : (parserOf (exec .fieldV (withCrc .idle 0xf5c412c0#32))).map (fun p => (p.state, p.crc)) =
    some (.voltage, 0x387eb0d7#32) := by decide +kernel

/-- P1 word 11. -/
theorem test_fieldT : (parserOf (exec .fieldT (withCrc .idle 0xbb76f919#32))).map (fun p => (p.state, p.crc)) =
    some (.temperature, 0x8b1f82c4#32) := by decide +kernel

/-- 40_parser.md R111; in Button the prefix is X6 (T25's rule R120). -/
theorem test_fieldB : (parserOf (exec .fieldB (inState .idle))).map (fun p => p.state) = some .button ∧
    (nextOf (exec .fieldB (inState .button))).map (fun s => s.ghost) = some [.violation .x6] := by decide +kernel

/-- 40_parser.md R111, R112. -/
theorem test_fieldUnknown : (parserOf (exec (.fieldUnknown 0x58#8) (inState .idle))).map (fun p => p.state) = some .skipping ∧
    (nextOf (exec (.fieldUnknown 0x46#8) (inState .address))).map (fun s => s.ghost) = some [.violation .x2] := by
  decide +kernel

/-- P1 word 10. -/
theorem test_separatorSp : (parserOf (exec .separatorSp { State.reset with
      parser := { ParserRegs.reset with state := .voltage, acc := 0x4d2#32, cnt := 4#4, crc := 0x628672b2#32 } })) =
    some { ParserRegs.reset with state := .idle, crc := 0xbb76f919#32, voltV := true, volt := 1234#14 } := by decide +kernel

/-- P1 word 15. -/
theorem test_checksumStart : (parserOf (exec .checksumStart { State.reset with
      parser := { ParserRegs.reset with state := .temperature, acc := 0x38#32, cnt := 2#4, neg := true,
                                        crc := 0xb3b328ab#32 } })) =
    some { ParserRegs.reset with state := .checksum, crc := 0xd6ed8624#32, tempV := true, temp := BitVec.ofInt 15 (-56) } := by
  decide +kernel

/-- P1 word 24, under REJECT_ON_MISMATCH; the registers keep the frame. -/
theorem test_frameEnd_emits : (nextOf (exec .frameEnd { State.reset with
      cfg := strictConfig
      parser := { ParserRegs.reset with state := .checksum, acc := 0x291279db#32, cnt := 8#4, crc := 0xd6ed8624#32,
                                        addrV := true, addr := 3#4, voltV := true, volt := 1234#14, tempV := true,
                                        temp := BitVec.ofInt 15 (-56) } })).map
      (fun s => (s.parser.state, s.parser.acc, msgBits s.msg)) = some (.initial, 0x291279db#32, 0x0ff91134a7#40) := by
  decide +kernel

/-- P4: the same policy on a mismatch is X9. -/
theorem test_frameEnd_rejects : (nextOf (exec .frameEnd { State.reset with
      cfg := strictConfig
      parser := { ParserRegs.reset with state := .checksum, cnt := 8#4, crc := 0xb85f22a3#32, addrV := true, addr := 3#4 } })).map
      (fun s => (s.parser.state, s.msg, s.ghost)) = some (.invalid, none, [.violation .x9]) := by decide +kernel

/-- T31. -/
theorem test_checksumCr : parserOf (exec .checksumCr (withCrc .checksum 0xb85f22a3#32)) =
    some (withCrc .checksum 0xb85f22a3#32).parser := by decide +kernel

/-! Witnesses: states and operands that meet the hypotheses of each statement, at the ends of their ranges. -/

theorem test_witness_DecodeOfEncodeIsTheOperation : Instr.wellFormed (.parse 0xFF#8) = true ∧
    Instr.wellFormed (.recvByte 0x00#8) = true ∧ Instr.wellFormed (.fieldUnknown 0x43#8) = true ∧
    Instr.wellFormed (.fieldUnknown 0x5A#8) = true := by decide

theorem test_witness_DecodedOperationsEncodeBack : decodeWire 0x5A#8 = .ok (.fieldUnknown 0x5A#8) ∧
    decodeWire 0x0A#8 = .ok .frameEnd := by decide

/-- Two words that agree on `op` alone, two PARSE words, two RECV words with `v = 1`, and two with `v = 0`. -/
theorem test_witness_IgnoredBitsChangeNoStep :
    ∀ x ∈ [((0x0002#16, 0xFFFA#16) : CmdWord × CmdWord), (0x8101#16, 0x81F9#16), (0xFF0D#16, 0xFFFD#16), (0x0005#16, 0xFFF5#16)],
      x.1.extractLsb' 0 3 = x.2.extractLsb' 0 3 ∧
      (x.1.extractLsb' 0 3 = 5#3 → x.1.getLsbD 3 = x.2.getLsbD 3) ∧
      (x.1.extractLsb' 0 3 = 1#3 ∨ (x.1.extractLsb' 0 3 = 5#3 ∧ x.1.getLsbD 3 = true) →
        x.1.extractLsb' 8 8 = x.2.extractLsb' 8 8) := by simp

theorem test_witness_StepRunsTheDecodedOperation :
    ({ State.reset with inbox := [.call 0xFF0D#16 3 [] none] } : State).inbox = [.call 0xFF0D#16 3 [] none] ∧
    State.reset.hung = false ∧
    (({ State.reset with inbox := [.wire 0x5A#8] } : State).inbox = [.wire 0x5A#8] ∧
      decodeWire 0x5A#8 = .ok (.fieldUnknown 0x5A#8)) ∧
    (({ State.reset with inbox := [.wire 0x5B#8] } : State).inbox = [.wire 0x5B#8] ∧
      decodeWire 0x5B#8 = .error (.notAToken 0x5B#8)) := by decide

theorem test_witness_NoPendingMoveHoldsTheState : State.reset.inbox = [] := rfl

theorem test_witness_PlacedWordRunsNext :
    (Instr.wellFormed (.recvByte 0xFF#8) = true ∧ encode (.recvByte 0xFF#8) = .command 0xFF0D#16) ∧
    (Instr.wellFormed (.fieldUnknown 0x5A#8) = true ∧ encode (.fieldUnknown 0x5A#8) = .wire 0x5A#8) := by decide

theorem test_witness_PowerOnSetsEveryRegister :
    ({ inState .invalid with inbox := [.powerOn (2 ^ 32)] } : State).inbox = [.powerOn (2 ^ 32)] := rfl

theorem test_witness_PowerOnMeetsTheInvariants : lowConfig.valid ∧ State.reset.inv := by decide

/-- InitialWaitsForTheFrameStart, IdleSelectsTheField, AddressTakesOneHexDigit, ButtonTakesOneDigit,
SkippingEndsAtATerminator, InvalidIgnoresEveryByte, NewlineClosesTheFrame: they ask for a state alone. -/
theorem test_witness_parse_states : (inState .initial).parser.state = .initial ∧ (inState .idle).parser.state = .idle ∧
    (inState .address).parser.state = .address ∧ (inState .button).parser.state = .button ∧
    (inState .skipping).parser.state = .skipping ∧ (inState .invalid).parser.state = .invalid ∧
    (inState .checksum).parser.state = .checksum := by decide

/-- IdleSelectsTheField: every byte value falls under exactly one clause. -/
theorem test_witness_IdleSelectsTheField_clauses : ∀ b : Byte,
    ([decide (b = 0x41#8), decide (b = 0x56#8), decide (b = 0x54#8), decide (b = 0x42#8), decide (b = 0x20#8),
      decide (b = 0x7C#8), decide (0x43 ≤ b.toNat ∧ b.toNat ≤ 0x5A ∧ b ≠ 0x54#8 ∧ b ≠ 0x56#8),
      decide (¬ (0x41 ≤ b.toNat ∧ b.toNat ≤ 0x5A) ∧ b ≠ 0x20#8 ∧ b ≠ 0x7C#8)].count true) = 1 := by decide +kernel

/-- The ends of the ranges that clauses 7 and 8 name. -/
theorem test_witness_IdleSelectsTheField_ends :
    (∀ b ∈ [0x43#8, 0x5A#8, 0x53#8, 0x55#8], 0x43 ≤ b.toNat ∧ b.toNat ≤ 0x5A ∧ b ≠ 0x54#8 ∧ b ≠ 0x56#8) ∧
    (∀ b ∈ [0x00#8, 0x40#8, 0x5B#8, 0x3A#8, 0xFF#8],
      ¬ (0x41 ≤ b.toNat ∧ b.toNat ≤ 0x5A) ∧ b ≠ 0x20#8 ∧ b ≠ 0x7C#8) := by decide

theorem test_witness_VoltageCollectsDigits : (inState .voltage).parser.state = .voltage ∧
    (∀ c ∈ [0#4, 4#4], c.toNat ≤ 4) := by decide

theorem test_witness_TemperatureCollectsASignedNumber :
    (∀ c ∈ [0#4, 4#4], c.toNat ≤ 4) ∧ (∀ a ∈ [0#32, 9999#32], a.toNat ≤ 9999) ∧
    (inState .temperature).parser.state = .temperature := ⟨by simp, by simp, rfl⟩

theorem test_witness_ChecksumCollectsHexDigits : (inState .checksum).parser.state = .checksum ∧
    (∀ b ∈ [0x30#8, 0x66#8, 0x20#8, 0x0D#8, 0x67#8], b ≠ 0x0A#8) := by decide

/-- X2 by PARSE. -/
theorem test_witness_EnteringInvalidSavesNothing :
    ∃ s', exec (.parse 0x46#8) (inState .address) = .next s' ∧ (inState .address).parser.state ≠ .invalid ∧
      s'.parser.state = .invalid := ⟨_, rfl, by decide +kernel, by decide +kernel⟩

/-- By PRESET, and by a silence of exactly one period and the grace. -/
theorem test_witness_OnlyPresetLeavesInvalid :
    (∃ s', exec .preset (inState .invalid) = .next s' ∧ (inState .invalid).parser.state = .invalid ∧
      s'.parser.state ≠ .invalid) ∧
    (∃ s', exec .recvIdle (atTime 3300 (inState .invalid)) = .next s' ∧
      (atTime 3300 (inState .invalid)).parser.state = .invalid ∧ s'.parser.state ≠ .invalid) :=
  ⟨⟨_, rfl, by decide +kernel, by decide +kernel⟩, ⟨_, rfl, by decide +kernel, by decide +kernel⟩⟩

/-- The state after reset with an address recorded. -/
def addressed : State := { State.reset with parser := { ParserRegs.reset with addrV := true, addr := 15#4 } }

theorem test_witness_ReEmissionWithoutPreset : addressed.parser.state = .initial ∧ addressed.parser.addrV = true ∧
    (0x39#8 ≠ 0x3A#8 ∧ 0x3B#8 ≠ 0x3A#8) := by decide

theorem test_witness_TokensCompleteWhereTheTableNamesThem :
    (inState .initial).parser.state = .initial ∧ (inState .idle).parser.state = .idle ∧
    (∀ x ∈ [0x43#8, 0x5A#8], Instr.wellFormed (.fieldUnknown x) = true) ∧
    (let s : State := { State.reset with parser := { ParserRegs.reset with state := .checksum, cnt := 8#4 } }
     s.parser.state = .checksum ∧ s.parser.cnt = 8#4 ∧ s.parser.addrV = false ∧ s.cfg.policy = .acceptRegardless) ∧
    beforeNewline.parser.state = .checksum ∧ beforeNewline.parser.cnt = 8#4 ∧ beforeNewline.parser.addrV = true ∧
    beforeNewline.parser.acc = beforeNewline.parser.crc ^^^ 0xFFFFFFFF#32 := by decide

/-- The bytes of `A0`, an item with an address. -/
theorem items_A0 : Items [0x41#8, 0x30#8] true := .address _ _ _ (by decide) .nil

/-- Items of every kind: `A0 V9999B5 T-1 Z9`, the last one ended by the bar. -/
theorem items_every_kind : Items [0x41#8, 0x30#8, 0x20#8, 0x56#8, 0x39#8, 0x39#8, 0x39#8, 0x39#8, 0x20#8, 0x42#8, 0x35#8,
    0x54#8, 0x2D#8, 0x31#8, 0x20#8, 0x5A#8, 0x39#8] true :=
  .address _ _ false (by decide) (.space _ _
    (.delimited [0x56#8, 0x39#8, 0x39#8, 0x39#8, 0x39#8] _ _ (.voltage _ (by decide) (by decide) (by decide))
      (.button _ _ _ (by decide)
        (.delimited [0x54#8, 0x2D#8, 0x31#8] _ _ (.negative _ (by decide) (by decide) (by decide))
          (.last [0x5A#8, 0x39#8] (.unknown _ _ (by decide) (by decide)))))))

theorem test_witness_RunningCrcCoversTheFrame : 0x3A#8 ∉ [0x78#8, 0x7C#8] ∧
    Items [0x41#8, 0x30#8, 0x20#8, 0x56#8, 0x39#8, 0x39#8, 0x39#8, 0x39#8, 0x20#8, 0x42#8, 0x35#8, 0x54#8, 0x2D#8, 0x31#8,
      0x20#8, 0x5A#8, 0x39#8] true ∧
    (∀ x ∈ [0x30#8, 0x66#8, 0x20#8, 0x0D#8], isHexLc x = true ∨ x = 0x20#8 ∨ x = 0x0D#8) :=
  ⟨by decide, items_every_kind, by decide⟩

/-- W2 with junk before it and a space and a carriage return among the digits, under REJECT_ON_MISMATCH. -/
theorem test_witness_AcceptedStringsEmit : Accepted strictConfig [0x78#8, 0x3A#8, 0x41#8, 0x30#8, 0x7C#8, 0x33#8, 0x35#8,
    0x34#8, 0x62#8, 0x20#8, 0x38#8, 0x32#8, 0x38#8, 0x66#8, 0x0D#8, 0x0A#8] :=
  ⟨[0x78#8], [0x41#8, 0x30#8],
    [0x33#8, 0x35#8, 0x34#8, 0x62#8, 0x20#8, 0x38#8, 0x32#8, 0x38#8, 0x66#8, 0x0D#8],
    rfl, by decide, items_A0, by decide, by decide, by decide +kernel⟩

/-- The bytes of W2. -/
def w2 : List Byte :=
  [0x3A#8, 0x41#8, 0x30#8, 0x7C#8, 0x33#8, 0x35#8, 0x34#8, 0x62#8, 0x38#8, 0x32#8, 0x38#8, 0x66#8, 0x0A#8]

/-- W2 meets both hypotheses under REJECT_ON_MISMATCH. -/
theorem test_witness_OnlyAcceptedStringsEmit :
    (∀ u v, w2 = u ++ v → v ≠ [] → ¬ ClosesFrame strictConfig (preset ParserRegs.reset) u) ∧
    (emitTest (parseAll strictConfig (preset ParserRegs.reset) w2)).isSome = true := by
  refine ⟨fun u v h hv => ?_, by decide +kernel⟩
  have key : ∀ n : Fin 13, (parseAll strictConfig (preset ParserRegs.reset) (w2.take n)).state = .checksum →
      (parseAll strictConfig (preset ParserRegs.reset) (w2.take (n + 1))).state = .initial → n.val = 12 := by
    decide +kernel
  rintro ⟨u', b, rfl, h1, h2⟩
  have hl : u'.length + 1 + v.length = 13 := by
    have := congrArg List.length h
    simp [w2] at this
    omega
  have hv' : 0 < v.length := List.length_pos_iff.mpr hv
  have e1 : w2.take u'.length = u' := by rw [h]; simp
  have e2 : w2.take (u'.length + 1) = u' ++ [b] := by rw [h]; exact List.take_left' (by simp)
  have := key ⟨u'.length, by omega⟩ (by rw [e1]; exact h1) (by rw [e2]; exact h2)
  simp at this
  omega

/-- Every kind of field, with values at the ends of their ranges. -/
theorem test_witness_SentFramesAreReceived :
    ∀ fs ∈ [[SentField.address 15#4, .voltage [9, 9, 9, 9], .temperature true [9, 9, 9, 9], .button 5],
        [.button 0, .unknown 0x5A#8 [0x3A#8, 0x0A#8], .temperature true [0], .voltage [0], .address 0#4]],
      (∀ f ∈ fs, f.sendable = true) ∧ (∃ h, sentAddresses fs = [h]) ∧ (sentVoltages fs).length ≤ 1 ∧
      (sentTemperatures fs).length ≤ 1 ∧ (sentButtons fs).length ≤ 1 := by decide

theorem test_witness_NoFrameStartNoMessage : ParserRegs.reset.state = .initial ∧ ParserRegs.reset.addrV = false ∧
    0x3A#8 ∉ [0x6E#8, 0x41#8, 0x7C#8, 0x0A#8] := by decide

/-- The command words of NopLeavesTheState, CanSendComparesTheTurn and ReservedOpCodesAreRefused. -/
theorem test_witness_command_words : (0xFFF8#16 : CmdWord).extractLsb' 0 3 = 0#3 ∧
    (0x0003#16 : CmdWord).extractLsb' 0 3 = 3#3 ∧ (0x000E#16 : CmdWord).extractLsb' 0 3 = 6#3 ∧
    (0xFFFF#16 : CmdWord).extractLsb' 0 3 = 7#3 := by decide

theorem test_witness_SendTransmitsAndClaimsTheTurn : State.reset.port.txStall = none := rfl

/-- Out of turn, in turn, and a silence of exactly one period and the grace. -/
theorem test_witness_ArbiterEventsAreRecorded :
    State.reset.arb.turn.toInt ≠ (State.reset.cfg.myAddr.toNat : Int) ∧
    (arbAt 5#5 0 false).arb.turn.toInt = ((arbAt 5#5 0 false).cfg.myAddr.toNat : Int) ∧
    (let s := atTime 3300 State.reset
     s.cfg.valid ∧ (if s.arb.idle then 0 else s.cfg.byteTimeUs) + s.cfg.cycleUs
       ≤ elapsed s.cfg.timeWidth s.port.now s.arb.last) := by decide +kernel

/-- The state inside a hung SEND: the empty payload, the transport stopped after `k` of the 11 bytes. -/
def hungState (k : Nat) : State := hangInSend k State.reset

/-- R267 on A3's frame: the direction stays TX and the turn is not claimed; the second byte never completes. -/
theorem test_send_hangs : (hungState 1).arb = ⟨-1#5, 0, false, .tx⟩ ∧ (hungState 1).hung = true ∧
    (hungState 1).tx = [.setDir .tx, .write 0x3A#8, .write 0x7C#8] := by decide +kernel

/-- No byte, all 11 bytes (the flush stalls), a call behind the hang, and a reset at the head and behind a call. -/
theorem test_witness_StalledTransportHangsSend :
    (∀ k ∈ [0, 11], ({ State.reset with port := ⟨0, [], some k⟩ } : State).port.txStall = some k) ∧
    (let s : State := { hungState 0 with inbox := [.call 0x0000#16 0 [] none] }
     s.hung = true ∧ s.inbox ≠ [] ∧ ∀ (e : Event) (t : Nat), e ∈ s.inbox → e ≠ .powerOn t) ∧
    (let s : State := { hungState 11 with inbox := [.powerOn 9] }
     s.hung = true ∧ s.inbox = [] ++ .powerOn 9 :: []) ∧
    (let s : State := { hungState 11 with inbox := [.call 0x0000#16 0 [] none, .powerOn 9] }
     s.hung = true ∧ s.inbox = [.call 0x0000#16 0 [] none] ++ .powerOn 9 :: [] ∧
     ∀ (e : Event) (t : Nat), e ∈ [Event.call 0x0000#16 0 [] none] → e ≠ .powerOn t) := by
  refine ⟨by simp, ⟨rfl, by simp, ?_⟩, ⟨rfl, rfl⟩, rfl, rfl, ?_⟩ <;> (intro e t h; simp at h; subst h; simp)

theorem test_witness_SilenceAdvancesTheTurn : State.reset.cfg.valid ∧ lowConfig.valid := by decide

/-- Both ends of the interval, with and without the grace, for k = 1 and k = 16. -/
theorem test_witness_LongSilenceCatchesUp :
    ∀ x ∈ [(1, 3300, false), (1, 6499, false), (16, 51200, true), (16, 54399, true)],
      let s := atTime x.2.1 (arbAt 9#5 0 x.2.2)
      s.cfg.valid ∧ 1 ≤ x.1 ∧
      x.1 * s.cfg.cycleUs + (if s.arb.idle then 0 else s.cfg.byteTimeUs)
        ≤ elapsed s.cfg.timeWidth s.port.now s.arb.last ∧
      elapsed s.cfg.timeWidth s.port.now s.arb.last
        < (x.1 + 1) * s.cfg.cycleUs + (if s.arb.idle then 0 else s.cfg.byteTimeUs) := by decide +kernel

/-- k = 1 and k = 2, with the grace at each end of its range. -/
theorem test_witness_ExactMultipleLosesASlotToTheGrace :
    ∀ x ∈ [(1, 3200, 1), (2, 6400, 1), (1, 3200, 3200), (2, 6400, 3200)],
      let s : State := { atTime x.2.1 (arbAt 3#5 0 false) with cfg := { Config.vectors with byteTimeUs := x.2.2 } }
      s.cfg.valid ∧ s.arb.idle = false ∧ 1 ≤ s.cfg.byteTimeUs ∧ s.cfg.byteTimeUs ≤ s.cfg.cycleUs ∧ 1 ≤ x.1 ∧
      elapsed s.cfg.timeWidth s.port.now s.arb.last = x.1 * s.cfg.cycleUs := by decide +kernel

theorem test_witness_ElapsedTimeWraps : (1 : Nat) < 2 ^ 1 ∧ 4294967295 < 2 ^ 32 := by decide

/-- SEND out of turn, the newline of a frame of the device's own address, and a silence of six periods and the grace. -/
theorem test_witness_OnlyThreeOperationsOpenTheGate :
    (∃ s', exec .send State.reset = .next s' ∧ canSend State.reset.cfg State.reset.arb.turn = false ∧
      canSend s'.cfg s'.arb.turn = true) ∧
    (let s : State := { beforeNewline with parser := { beforeNewline.parser with addr := 5#4 } }
     ∃ s', exec (.recvByte 0x0A#8) s = .next s' ∧ canSend s.cfg s.arb.turn = false ∧
      canSend s'.cfg s'.arb.turn = true) ∧
    (∃ s', exec .recvIdle (atTime 19300 State.reset) = .next s' ∧
      canSend (atTime 19300 State.reset).cfg (atTime 19300 State.reset).arb.turn = false ∧
      canSend s'.cfg s'.arb.turn = true) :=
  ⟨⟨_, rfl, by decide +kernel, by decide +kernel⟩, ⟨_, rfl, by decide +kernel, by decide +kernel⟩,
    ⟨_, rfl, by decide +kernel, by decide +kernel⟩⟩

/-- W7: two calls at the last instant before the device's slot. -/
theorem test_witness_GateStaysShutDuringEarlySilence : Config.vectors.valid ∧
    List.Pairwise (fun a b : Nat => a ≤ b) (0 :: [3300, 19299]) ∧
    (∀ now ∈ 0 :: [3300, 19299], now < 2 ^ Config.vectors.timeWidth ∧
      now < 0 + Config.vectors.byteTimeUs + (Config.vectors.myAddr.toNat + 1) * Config.vectors.cycleUs) := by decide

/-- W8: a Message of another address, and one period after a SEND. -/
theorem test_witness_OnlyTwoOperationsShutTheGate :
    (let s : State := { beforeNewline with arb := ⟨5#5, 0, true, .rx⟩ }
     ∃ s', s.cfg.valid ∧ exec (.recvByte 0x0A#8) s = .next s' ∧ canSend s.cfg s.arb.turn = true ∧
      canSend s'.cfg s'.arb.turn = false) ∧
    (let s := atTime 18300 (arbAt 5#5 15000 false)
     ∃ s', s.cfg.valid ∧ exec .recvIdle s = .next s' ∧ canSend s.cfg s.arb.turn = true ∧
      canSend s'.cfg s'.arb.turn = false) :=
  ⟨⟨_, by decide, rfl, by decide +kernel, by decide +kernel⟩, ⟨_, by decide, rfl, by decide +kernel, by decide +kernel⟩⟩

theorem test_witness_TurnNeverReturnsToTheSentinel : ∀ t ∈ [0#5, 15#5],
    (∃ s', exec .recvIdle (atTime 3300 (arbAt t 0 false)) = .next s') ∧ 0 ≤ (arbAt t 0 false).arb.turn.toInt := by
  intro t ht
  refine ⟨⟨_, rfl⟩, ?_⟩
  revert t
  decide

/-- An operation that asks the transport for nothing, and SEND. -/
theorem test_witness_DirectionIsReceiveOnEveryExit :
    ((∃ s', exec .preset State.reset = .next s') ∧ Instr.preset ≠ .send) ∧
    ((∃ s', exec .send State.reset = .next s') ∧ State.reset.port.txStall = none) :=
  ⟨⟨⟨_, rfl⟩, by decide⟩, ⟨_, rfl⟩, rfl⟩

/-- Each of the stops happens. -/
theorem test_witness_NothingElseStops :
    (Instr.send ≠ .reserved110 ∧ Instr.send ≠ .reserved111) ∧
    step { hungState 0 with inbox := [.call 0x0003#16 0 [] none] } = .fault .transportStalled ∧
    step { State.reset with inbox := [.call 0x0006#16 0 [] none] } = .refused (.reservedOp 6#3) ∧
    step { State.reset with inbox := [.call 0x000F#16 0 [] none] } = .refused (.reservedOp 7#3) :=
  ⟨by decide, rfl, rfl, rfl⟩

/-- A state at the ends of the invariant's ranges: four digits, the largest number, a full set of fields. -/
def fullState : State := { State.reset with
  parser := ⟨.temperature, 9999#32, 4#4, true, 0#32, true, 15#4, true, 9999#14, true, BitVec.ofInt 15 (-9999), true, 5#3⟩
  arb := ⟨15#5, 2 ^ 32 - 1, true, .rx⟩
  inbox := [.call 0x200D#16 0 [] none] }

/-- Outside a hung SEND, and inside one at its reset. -/
theorem test_witness_StepKeepsTheInvariant : (fullState.inv ∧ ∃ s', step fullState = .next s') ∧
    (let s : State := { hungState 3 with inbox := [.powerOn 5] }
     State.inv s ∧ ∃ s', step s = .next s') :=
  ⟨⟨by decide, ⟨_, rfl⟩⟩, ⟨by decide, ⟨_, rfl⟩⟩⟩

theorem test_witness_ArbiterMovesKeepTheArbiterInvariant :
    fullState.arbiterInv ∧ (∀ e ∈ fullState.inbox, e.arbiterMove = true) ∧ ∃ s', step fullState = .next s' :=
  ⟨by decide, by decide, ⟨_, rfl⟩⟩

theorem test_witness_NoStepWritesTheConfiguration : ∃ s', step fullState = .next s' := ⟨_, rfl⟩

theorem test_witness_ReturnedMessagesAreLegal : State.inv addressed ∧ addressed.msg = none ∧
    ∃ s' m, exec (.parse 0x00#8) addressed = .next s' ∧ s'.msg = some m := ⟨by decide, rfl, _, _, rfl, rfl⟩

/-- The state after reset meets the invariants under a configuration at the low end of its ranges. -/
theorem test_powerOn_low : State.inv (State.powerOn lowConfig 1) ∧ State.arbiterInv (State.powerOn lowConfig 1) :=
  ⟨by decide, by decide⟩

theorem test_reset_inv : State.reset.inv ∧ State.reset.arbiterInv := ⟨by decide, by decide⟩

/-- A whole frame through the step function: W2's newline, as the last pending wire byte. -/
theorem test_step_wire : (nextOf (step { beforeNewline with inbox := [.wire 0x0A#8] })).map (fun s => s.msg) =
    some (some ⟨4#4, none, none, none⟩) := by decide +kernel

end Sys2Proof.Tests
end

/-! PROOFS of the state family: what leaves the configuration alone (spec/10_state.md R39). -/

namespace Sys2Proof.Machine

/-! The configuration after each state operation. -/

@[simp] theorem parseByte_cfg (b : Byte) (s : State) : (parseByte b s).cfg = s.cfg := by
  rw [parseByte_eq]

@[simp] theorem advance_cfg (now k : Nat) (s : State) : (advance now k s).cfg = s.cfg := by
  simp [advance]

@[simp] theorem sendFrame_cfg (s : State) : (sendFrame s).cfg = s.cfg := by
  simp [sendFrame]

@[simp] theorem hangInSend_cfg (k : Nat) (s : State) : (hangInSend k s).cfg = s.cfg := by
  rw [hangInSend_eq]

/-- RECV with a byte, whether the byte completes a Message or not. -/
@[simp] theorem recvByte_cfg (b : Byte) (s : State) : (recvByte b s).cfg = s.cfg := by
  rw [recvByte_eq]
  split <;> exact parseByte_cfg b s

/-- RECV with no byte, whether the turn advances or not, under any configuration. -/
@[simp] theorem recvIdle_cfg (s : State) : (recvIdle s).cfg = s.cfg := by
  obtain ⟨k, hk, -, -⟩ | hq := recvIdle_cases s
  · simp [hk]
  · simp [hq]

/-- 10_state.md R39: "No operation writes them". -/
theorem exec_cfg {i : Instr} {s s' : State} (h : exec i s = .next s') : s'.cfg = s.cfg := by
  obtain ⟨-, rfl⟩ | ⟨b, -, rfl⟩ | ⟨-, rfl⟩ | ⟨-, rfl⟩ | ⟨-, -, rfl⟩ | ⟨k, -, -, rfl⟩ | ⟨b, -, rfl⟩ | ⟨-, rfl⟩ :=
    exec_next_cases h
  · rfl
  · exact parseByte_cfg b s
  · exact s.withParser_cfg ParserRegs.reset
  · exact s.withCs_cfg (canSend s.cfg s.arb.turn)
  · exact sendFrame_cfg s
  · exact hangInSend_cfg k s
  · exact recvByte_cfg b s
  · exact recvIdle_cfg s

/-- Taking a move from the environment latches its operands and leaves the configuration. -/
theorem nextOperation_cfg {s t : State} {i : Instr} (h : nextOperation s = some (i, t)) : t.cfg = s.cfg := by
  obtain ⟨e, rest, p, -, rfl, -⟩ := nextOperation_cases h
  exact latchCall_cfg s rest p

/-- Settles O57: an operation, a power-on reset and a step that holds the state each leave the configuration. -/
theorem noStepWritesTheConfiguration : Obligations.NoStepWritesTheConfiguration := by
  intro s s' h
  obtain ⟨i, t, -, hop, hexec⟩ | ⟨pre, t, rest, -, -, rfl⟩ | rfl := step_next_cases h
  · calc
      s'.cfg = t.cfg := exec_cfg hexec
      _ = s.cfg := nextOperation_cfg hop
  · exact powerOnReset_cfg s rest t
  · rfl

end Sys2Proof.Machine

/-! PROOFS of the encoding family: the reserved op codes (spec/30_encoding.md R93) and the layout of the `msg` result
(R92). -/

namespace Sys2Proof.Machine

/-! The reserved op codes. -/

@[simp] theorem exec_reserved110 (s : State) : exec .reserved110 s = .refused (.reservedOp 6#3) := rfl

@[simp] theorem exec_reserved111 (s : State) : exec .reserved111 s = .refused (.reservedOp 7#3) := rfl

theorem decodeCommand_reserved110 {w : CmdWord} (h : opField w = 6#3) : decodeCommand w = .reserved110 := by
  simp [decodeCommand, h]

theorem decodeCommand_reserved111 {w : CmdWord} (h : opField w = 7#3) : decodeCommand w = .reserved111 := by
  simp [decodeCommand, h]

/-- Settles O53: either operation is refused, and the op field alone selects it. -/
theorem reservedOpCodesAreRefused : Obligations.ReservedOpCodesAreRefused :=
  ⟨fun s => ⟨exec_reserved110 s, exec_reserved111 s⟩,
    fun _ => ⟨decodeCommand_reserved110, decodeCommand_reserved111⟩⟩

/-! One optional field of the `msg` result: the presence bit below the value. -/

theorem fieldBits_presence {w : Nat} (x : Option (BitVec w)) : (fieldBits x).getLsbD 0 = x.isSome := by
  simp [fieldBits, BitVec.getLsbD_append, -BitVec.getLsbD_eq_getElem]

theorem fieldBits_value {w : Nat} (x : Option (BitVec w)) : (fieldBits x).extractLsb' 1 w = x.getD 0#w :=
  BitVec.extractLsb'_append_eq_left

/-- A word that holds an optional field at bit `k` has the presence bit there and the value above it. -/
theorem fieldBits_at {n w k : Nat} {b : BitVec n} {x : Option (BitVec w)} (h : b.extractLsb' k (w + 1) = fieldBits x) :
    b.getLsbD k = x.isSome ∧ b.extractLsb' (k + 1) w = x.getD 0#w := by
  rw [← fieldBits_presence, ← fieldBits_value, ← h]
  constructor
  · simp
  · ext i hi
    have hlt : 1 + i < w + 1 := by omega
    simp [Nat.add_assoc, hlt]

/-! The `msg` result, from bit 0 up. -/

theorem msgBits_valid (m : Message) : (msgBits (some m)).getLsbD 0 = true := by
  simp only [msgBits, BitVec.getLsbD_cast, BitVec.getLsbD_append]
  rfl

/-- A range of the layout is one part once the parts below it are skipped and the parts above it are dropped. -/
theorem msgBits_parts (m : Message) :
    (msgBits (some m)).extractLsb' 1 4 = m.address ∧ (msgBits (some m)).extractLsb' 5 15 = fieldBits m.voltage ∧
    (msgBits (some m)).extractLsb' 20 16 = fieldBits m.temperature ∧
    (msgBits (some m)).extractLsb' 36 4 = fieldBits m.button := by
  simp (disch := decide) only [msgBits, BitVec.extractLsb'_cast, BitVec.extractLsb'_append_eq_of_le,
    BitVec.extractLsb'_append_eq_of_add_le]
  exact ⟨BitVec.extractLsb'_eq_self, BitVec.extractLsb'_eq_self, BitVec.extractLsb'_eq_self, BitVec.extractLsb'_eq_self⟩

/-- Settles O60: each optional field stands whole at its place, so its presence bit and its value do too. -/
theorem messageLayout : Obligations.MessageLayout := by
  refine ⟨rfl, fun m => ?_⟩
  obtain ⟨haddress, hvoltage, htemperature, hbutton⟩ := msgBits_parts m
  obtain ⟨hvHas, hvValue⟩ := fieldBits_at hvoltage
  obtain ⟨htHas, htValue⟩ := fieldBits_at htemperature
  obtain ⟨hbHas, hbValue⟩ := fieldBits_at hbutton
  exact ⟨msgBits_valid m, haddress, hvHas, hvValue, htHas, htValue, hbHas, hbValue⟩

end Sys2Proof.Machine

/-! PROOFS of the parser family: PARSE in each state (spec/40_parser.md section 2) and the emission test (R102). -/

namespace Sys2Proof.Machine

/-! The fold, then the rule of the state (40_parser.md R101, 41_crc.md R162). -/

/-- What `CrcFold` gives for the state before the byte is the running CRC that state's rule finds. -/
theorem parseRegs_of_fold {cfg : Config} {b : Byte} {p : ParserRegs} {q : PState} {c : Word32} (h : p.state = q)
    (hfold : crcFold cfg q b p.crc = c) : parseRegs cfg b p = stateRule cfg q b { p with crc := c } := by
  rw [parseRegs, foldByte, h, hfold]

/-- In Checksum nothing is folded. -/
theorem parseRegs_checksum {cfg : Config} {b : Byte} {p : ParserRegs} (h : p.state = .checksum) :
    parseRegs cfg b p = stepChecksum cfg.policy b p :=
  parseRegs_of_fold h rfl

/-- The frame-start byte, folded over 0 where the CRC restarts. -/
theorem parseRegs_initial_colon {cfg : Config} {p : ParserRegs} (h : p.state = .initial) :
    parseRegs cfg colon p =
      ruleOk { p with state := .idle, crc := crcUpdate (if cfg.crcRestart then 0#32 else p.crc) colon } :=
  parseRegs_of_fold h rfl

/-- Before the frame-start byte nothing is folded and nothing moves. -/
theorem parseRegs_initial_other {cfg : Config} {b : Byte} {p : ParserRegs} (h : p.state = .initial) (hb : b ≠ colon) :
    parseRegs cfg b p = ruleOk p :=
  (parseRegs_of_fold h (if_neg hb)).trans (if_neg hb)

/-! From what the rule leaves to the state after PARSE. -/

@[simp] theorem gotoState_state (q : PState) (p : ParserRegs) : (gotoState q p).state = q := rfl

theorem exec_parse_ruleOk {s : State} {b : Byte} {p : ParserRegs} (h : parseRegs s.cfg b s.parser = ruleOk p) :
    exec (.parse b) s = .next { s with parser := p, msg := emitTest p } := by
  rw [exec_parse, parseByte_eq, h]
  simp [ruleOk, violations]

theorem emitTest_of_ne_initial {p : ParserRegs} (h : p.state ≠ .initial) : emitTest p = none :=
  (emitTest_eq_none p).mpr fun hinitial => absurd hinitial h

/-- In Initial the address alone decides. -/
theorem emitTest_initial {p : ParserRegs} (h : p.state = .initial) :
    emitTest p = if p.addrV then some (heldMessage p) else none := by
  simp [emitTest, h]

/-- A rule that does not end in Initial returns no Message. -/
theorem exec_parse_silent {s : State} {b : Byte} {p : ParserRegs} {x : Option Violation}
    (h : parseRegs s.cfg b s.parser = (p, x)) (hp : p.state ≠ .initial) :
    exec (.parse b) s = .next { s with parser := p, msg := none, ghost := s.ghost ++ violations x } := by
  rw [exec_parse, parseByte_eq, h, emitTest_of_ne_initial hp]

theorem exec_parse_silent_ruleOk {s : State} {b : Byte} {p : ParserRegs}
    (h : parseRegs s.cfg b s.parser = ruleOk p) (hp : p.state ≠ .initial) :
    exec (.parse b) s = .next { s with parser := p, msg := none } := by
  rw [exec_parse_ruleOk h, emitTest_of_ne_initial hp]

theorem exec_parse_gotoInvalid {s : State} {b : Byte} {p : ParserRegs} {x : Violation}
    (h : parseRegs s.cfg b s.parser = gotoInvalid x p) :
    exec (.parse b) s = .next { s with
      parser := { p with state := .invalid }, msg := none, ghost := s.ghost ++ [.violation x] } :=
  exec_parse_silent h (by simp)

/-! Digits and the end of a frame. -/

theorem hexval_eq {b : Byte} (h : isHexLc b = true) :
    hexval b = if b.toNat ≤ 0x39 then b.toNat - 0x30 else b.toNat - 0x61 + 10 := by
  rw [isHexLc_iff] at h
  simp only [hexval, inRange_iff]
  split <;> split <;> omega

/-- Four digits are far from saturation. -/
theorem bumpCnt_of_le_four {c : BitVec 4} (h : c.toNat ≤ 4) : bumpCnt c = c + 1#4 := by
  have hne : c ≠ 15#4 := by bv_omega
  rw [bumpCnt_eq, if_neg hne]

/-- Four digits and a sign fit the 15 bits of 10_state.md R30. -/
theorem commitTemp_temp_toInt {p : ParserRegs} (h : p.acc.toNat ≤ 9999) :
    (commitTemp p).temp.toInt = if p.neg then -(p.acc.toNat : Int) else (p.acc.toNat : Int) := by
  simp only [commitTemp, BitVec.toInt_ofInt, signedAcc, Int.bmod]
  split <;> omega

theorem checksumOk_eq_false_iff (policy : ChecksumPolicy) (p : ParserRegs) :
    checksumOk policy p = false ↔ policy = .rejectOnMismatch ∧ p.acc ≠ p.crc ^^^ 0xFFFFFFFF#32 := by
  cases policy <;> simp [checksumOk, checksumMatch, crcFinal]

/-! What the rules of Idle and Temperature can answer. -/

/-- Idle (R111): six bytes of their own, the other uppercase letters, and X1 for the rest. -/
theorem stepIdle_cases (b : Byte) (p : ParserRegs) :
    (b = letA ∧ stepIdle b p = ruleOk (gotoState .address p)) ∨
    (b = letV ∧ stepIdle b p = ruleOk (gotoState .voltage (accReset p))) ∨
    (b = letT ∧ stepIdle b p = ruleOk (gotoState .temperature (accReset p))) ∨
    (b = letB ∧ stepIdle b p = ruleOk (gotoState .button (accReset p))) ∨
    (b = sp ∧ stepIdle b p = ruleOk p) ∨
    (b = bar ∧ stepIdle b p = ruleOk (gotoState .checksum (accReset p))) ∨
    (isUpOther b = true ∧ stepIdle b p = ruleOk (gotoState .skipping p)) ∨
    ((b ≠ letA ∧ b ≠ letV ∧ b ≠ letT ∧ b ≠ letB ∧ b ≠ sp ∧ b ≠ bar ∧ ¬ isUpOther b = true) ∧
      stepIdle b p = gotoInvalid .x1 p) := by
  unfold stepIdle
  split_ifs with hA hV hT hB hsp hbar hup
  · exact .inl ⟨hA, rfl⟩
  · exact .inr (.inl ⟨hV, rfl⟩)
  · exact .inr (.inr (.inl ⟨hT, rfl⟩))
  · exact .inr (.inr (.inr (.inl ⟨hB, rfl⟩)))
  · exact .inr (.inr (.inr (.inr (.inl ⟨hsp, rfl⟩))))
  · exact .inr (.inr (.inr (.inr (.inr (.inl ⟨hbar, rfl⟩)))))
  · exact .inr (.inr (.inr (.inr (.inr (.inr (.inl ⟨hup, rfl⟩))))))
  · exact .inr (.inr (.inr (.inr (.inr (.inr (.inr ⟨⟨hA, hV, hT, hB, hsp, hbar, hup⟩, rfl⟩))))))

/-- Temperature (R117 to R119): the sign, a digit, a terminator, or the violation of the byte's class. -/
theorem stepTemperature_eq (b : Byte) (p : ParserRegs) :
    stepTemperature b p =
      if b = minus ∧ p.cnt = 0#4 ∧ p.neg = false then ruleOk { p with neg := true }
      else if 0x30 ≤ b.toNat ∧ b.toNat ≤ 0x39 ∧ p.cnt ≠ 4#4 then
        ruleOk { p with acc := decShift p.acc b, cnt := bumpCnt p.cnt }
      else if (b = sp ∨ b = bar) ∧ p.cnt ≠ 0#4 then
        ruleOk (gotoState (if b = sp then .idle else .checksum) (accReset (commitTemp p)))
      else gotoInvalid (if 0x30 ≤ b.toNat ∧ b.toNat ≤ 0x39 then .x3 else if b = sp ∨ b = bar then .x4 else .x5) p := by
  simp only [← and_assoc (c := p.cnt ≠ 4#4), ← isDec_iff]
  by_cases hminus : b = minus
  · have hdec : ¬ isDec b = true := by rw [hminus]; decide
    have hterm : ¬ (b = sp ∨ b = bar) := by rw [hminus]; decide
    rw [stepTemperature, if_pos hminus]
    simp only [hdec, hterm, Bool.false_eq_true, false_and, if_false]
    obtain ⟨hcnt, hneg, h⟩ | ⟨hnot, h⟩ := tempMinus_cases p
    · rw [h, if_pos ⟨hminus, hcnt, hneg⟩]
    · rw [h, if_neg fun hc => hnot hc.2]
  · simp only [stepTemperature, hminus, false_and, if_false]
    by_cases hdec : isDec b = true
    · have hterm : ¬ (b = sp ∨ b = bar) := by rintro (rfl | rfl) <;> simp [isDec_iff] at hdec
      simp only [hdec, hterm, true_and, false_and, if_true, if_false]
      obtain ⟨hcnt, h⟩ | ⟨hcnt, h⟩ := decDigit_cases b p
      · rw [h, if_neg (not_not.mpr hcnt)]
      · rw [h, if_pos hcnt]
    · by_cases hterm : b = sp ∨ b = bar
      · simp only [hdec, hterm, Bool.false_eq_true, true_and, false_and, if_true, if_false]
        obtain ⟨hcnt, h⟩ | ⟨hcnt, h⟩ := decTerminator_cases commitTemp b p
        · rw [h, if_neg (not_not.mpr hcnt)]
        · rw [h, if_pos hcnt]
      · simp only [hdec, hterm, Bool.false_eq_true, false_and, if_false]

/-! The obligations. -/

/-- Settles O11: each outcome of the rule fixes the byte's class, and with it which clauses speak. -/
theorem idleSelectsTheField : Obligations.IdleSelectsTheField := by
  intro s b hs
  have hrule : parseRegs s.cfg b s.parser = stepIdle b { s.parser with crc := crcUpdate s.parser.crc b } :=
    parseRegs_of_fold hs rfl
  obtain ⟨rfl, h⟩ | ⟨rfl, h⟩ | ⟨rfl, h⟩ | ⟨rfl, h⟩ | ⟨rfl, h⟩ | ⟨rfl, h⟩ | ⟨hup, h⟩ | ⟨hother, h⟩ :=
    stepIdle_cases b { s.parser with crc := crcUpdate s.parser.crc b }
  · exact ⟨.address, false, [], exec_parse_silent (hrule.trans h) (by simp), by decide⟩
  · exact ⟨.voltage, true, [], exec_parse_silent (hrule.trans h) (by simp), by decide⟩
  · exact ⟨.temperature, true, [], exec_parse_silent (hrule.trans h) (by simp), by decide⟩
  · exact ⟨.button, true, [], exec_parse_silent (hrule.trans h) (by simp), by decide⟩
  · exact ⟨s.parser.state, false, [], exec_parse_silent (hrule.trans h) (by simp [hs]), by simp [hs]⟩
  · exact ⟨.checksum, true, [], exec_parse_silent (hrule.trans h) (by simp), by decide⟩
  · refine ⟨.skipping, false, [], exec_parse_silent (hrule.trans h) (by simp), ?_⟩
    rw [isUpOther_iff] at hup
    simp only [reduceCtorEq, and_self, and_true, imp_false, Bool.false_eq_true, ne_eq, implies_true, not_and,
      not_le, List.ne_cons_self, and_false, Decidable.not_not, true_and]
    bv_omega
  · refine ⟨.invalid, false, [.x1], exec_parse_silent (hrule.trans h) (by simp), ?_⟩
    rw [isUpOther_iff] at hother
    simp only [reduceCtorEq, List.cons_ne_self, and_false, and_self, imp_false, Bool.false_eq_true, ne_eq, not_and,
      Decidable.not_not, not_le, implies_true, and_true]
    bv_omega

/-- Settles O14: a sign flag, a digit, a commit or a violation, as the rule's equation orders them. -/
theorem temperatureCollectsASignedNumber : Obligations.TemperatureCollectsASignedNumber := by
  intro s b hs hcnt hacc
  have hrule : parseRegs s.cfg b s.parser = stepTemperature b { s.parser with crc := crcUpdate s.parser.crc b } :=
    parseRegs_of_fold hs rfl
  rw [stepTemperature_eq] at hrule
  split at hrule
  case isTrue hsign => exact ⟨_, exec_parse_silent_ruleOk hrule (by simp [hs]), rfl, by rw [if_pos hsign]⟩
  case isFalse hsign =>
    split at hrule
    case isTrue hdigit =>
      refine ⟨_, exec_parse_silent_ruleOk hrule (by simp [hs]), rfl, ?_⟩
      rw [if_neg hsign, if_pos hdigit, bumpCnt_of_le_four hcnt]
      rfl
    case isFalse hdigit =>
      split at hrule
      case isTrue hterm =>
        have hstate : (if b = sp then PState.idle else .checksum) ≠ .initial := by split <;> simp
        refine ⟨_, exec_parse_silent_ruleOk hrule hstate, rfl, ?_⟩
        rw [if_neg hsign, if_neg hdigit, if_pos hterm]
        exact ⟨rfl, commitTemp_temp_toInt hacc⟩
      case isFalse hterm =>
        refine ⟨_, exec_parse_gotoInvalid hrule, rfl, ?_⟩
        rw [if_neg hsign, if_neg hdigit, if_neg hterm]

/-- Settles O17: the shift of `hexShift` is the shift and the or of 30_encoding.md R83. -/
theorem checksumCollectsHexDigits : Obligations.ChecksumCollectsHexDigits := by
  intro s b hs hnl
  have hrule := parseRegs_checksum (cfg := s.cfg) (b := b) hs
  simp only [stepChecksum, if_neg hnl] at hrule
  simp only [← isHexLc_iff]
  split at hrule
  case isTrue hhex =>
    rw [exec_parse_silent_ruleOk hrule (by simp [hexDigit, hs]), if_pos hhex, hexDigit, hexShift_eq_or _ hhex,
      hexval_eq hhex, bumpCnt_eq]
  case isFalse hhex =>
    rw [if_neg hhex]
    split at hrule
    case isTrue hskip => rw [exec_parse_silent_ruleOk hrule (by simp [hs]), if_pos hskip]
    case isFalse hskip => rw [exec_parse_gotoInvalid hrule, if_neg hskip]

/-- Settles O18: the length is judged first, then the CRC under the policy. -/
theorem newlineClosesTheFrame : Obligations.NewlineClosesTheFrame := by
  intro s hs
  have hrule : parseRegs s.cfg nl s.parser = checksumEnd s.cfg.policy s.parser := parseRegs_checksum hs
  obtain ⟨hcnt, h⟩ | ⟨hcnt, hok, h⟩ | ⟨hcnt, hok, h⟩ := checksumEnd_cases s.cfg.policy s.parser
  · rw [exec_parse_gotoInvalid (hrule.trans h), if_pos hcnt]
  · have haccepted := mt (checksumOk_eq_false_iff ..).mpr (by simpa using hok)
    rw [exec_parse_ruleOk (hrule.trans h), if_neg (not_not.mpr hcnt), if_neg haccepted,
      emitTest_initial rfl]
    rfl
  · have hrejected := (checksumOk_eq_false_iff ..).mp hok
    rw [exec_parse_gotoInvalid (hrule.trans h), if_neg (not_not.mpr hcnt), if_pos hrejected]

/-- Settles O10: the frame-start byte leaves Initial; on any other byte the address alone decides the emission. -/
theorem initialWaitsForTheFrameStart : Obligations.InitialWaitsForTheFrameStart := by
  intro s b hs
  by_cases hb : b = colon
  · subst hb
    rw [exec_parse_silent_ruleOk (parseRegs_initial_colon hs) (by simp)]
    simp
  · rw [exec_parse_ruleOk (parseRegs_initial_other hs hb), if_neg hb]
    simp [emitTest_initial hs, hb, heldMessage, present]

/-- Settles O12: the two ranges of the digit class give its two values. -/
theorem addressTakesOneHexDigit : Obligations.AddressTakesOneHexDigit := by
  intro s b hs
  have hrule : parseRegs s.cfg b s.parser = stepAddress b { s.parser with crc := crcUpdate s.parser.crc b } :=
    parseRegs_of_fold hs rfl
  unfold stepAddress at hrule
  split at hrule
  case isTrue hhex =>
    rw [exec_parse_silent_ruleOk hrule (by simp), addrSet, hexval_eq hhex]
    obtain hlow | hhigh := (isHexLc_iff b).mp hhex
    · rw [if_pos hlow, if_pos hlow.2]
      rfl
    · have hnotLow : ¬ (0x30 ≤ b.toNat ∧ b.toNat ≤ 0x39) := by omega
      have hnotLe : ¬ b.toNat ≤ 0x39 := by omega
      rw [if_neg hnotLow, if_pos hhigh, if_neg hnotLe]
      rfl
  case isFalse hhex =>
    obtain ⟨hlow, hhigh⟩ := not_or.mp (mt (isHexLc_iff b).mpr hhex)
    rw [exec_parse_gotoInvalid hrule, if_neg hlow, if_neg hhigh]

/-- Settles O15: the digit class of R120 is the range itself. -/
theorem buttonTakesOneDigit : Obligations.ButtonTakesOneDigit := by
  intro s b hs
  have hrule : parseRegs s.cfg b s.parser = stepButton b { s.parser with crc := crcUpdate s.parser.crc b } :=
    parseRegs_of_fold hs rfl
  simp only [← isBtn_iff]
  unfold stepButton at hrule
  split at hrule
  case isTrue hbtn => rw [exec_parse_silent_ruleOk hrule (by simp), if_pos hbtn]; rfl
  case isFalse hbtn => rw [exec_parse_gotoInvalid hrule, if_neg hbtn]

/-- Settles O16: the two terminators, and every other byte. -/
theorem skippingEndsAtATerminator : Obligations.SkippingEndsAtATerminator := by
  intro s b hs
  have hrule : parseRegs s.cfg b s.parser = stepSkipping b { s.parser with crc := crcUpdate s.parser.crc b } :=
    parseRegs_of_fold hs rfl
  unfold stepSkipping at hrule
  split at hrule
  case isTrue hsp => rw [exec_parse_silent_ruleOk hrule (by simp), if_pos hsp]; rfl
  case isFalse hsp =>
    rw [if_neg hsp]
    split at hrule
    case isTrue hbar => rw [exec_parse_silent_ruleOk hrule (by simp), if_pos hbar]; rfl
    case isFalse hbar => rw [exec_parse_silent_ruleOk hrule (by simp [hs]), if_neg hbar]

/-- Settles O22: the registers are the rule's, and the emission test only reads them. -/
theorem emissionNeedsInitialAndAddress : Obligations.EmissionNeedsInitialAndAddress := by
  intro s b
  refine ⟨parseByte b s, exec_parse b s, rfl, ?_, ?_⟩
  · simp [parseByte_eq, emitTest]
  · intro m hm
    obtain ⟨-, -, rfl⟩ := (emitTest_eq_some _ m).mp hm
    exact ⟨rfl, rfl, rfl, rfl⟩

end Sys2Proof.Machine

/-! PROOFS of the CRC family: the bytes PARSE folds, the function and its check value, `Hex8` and the frame
(spec/41_crc.md). -/

namespace Sys2Proof.Machine

/-! The state rules leave the running CRC alone: PARSE writes it in the fold only (41_crc.md R162). -/

@[simp] theorem ruleOk_crc (p : ParserRegs) : (ruleOk p).1.crc = p.crc := rfl
@[simp] theorem gotoInvalid_crc (x : Violation) (p : ParserRegs) : (gotoInvalid x p).1.crc = p.crc := rfl
@[simp] theorem gotoState_crc (q : PState) (p : ParserRegs) : (gotoState q p).crc = p.crc := rfl
@[simp] theorem accReset_crc (p : ParserRegs) : (accReset p).crc = p.crc := rfl
@[simp] theorem commitVolt_crc (p : ParserRegs) : (commitVolt p).crc = p.crc := rfl
@[simp] theorem commitTemp_crc (p : ParserRegs) : (commitTemp p).crc = p.crc := rfl
@[simp] theorem addrSet_crc (b : Byte) (p : ParserRegs) : (addrSet b p).crc = p.crc := rfl
@[simp] theorem buttonSet_crc (b : Byte) (p : ParserRegs) : (buttonSet b p).crc = p.crc := rfl
@[simp] theorem hexDigit_crc (b : Byte) (p : ParserRegs) : (hexDigit b p).crc = p.crc := rfl

@[simp] theorem decDigit_crc (b : Byte) (p : ParserRegs) : (decDigit b p).1.crc = p.crc := by
  obtain ⟨-, h⟩ | ⟨-, h⟩ := decDigit_cases b p <;> simp [h]

theorem decTerminator_crc {commit : ParserRegs → ParserRegs} (b : Byte) {p : ParserRegs}
    (hcommit : (commit p).crc = p.crc) : (decTerminator commit b p).1.crc = p.crc := by
  obtain ⟨-, h⟩ | ⟨-, h⟩ := decTerminator_cases commit b p <;> simp [h, hcommit]

@[simp] theorem tempMinus_crc (p : ParserRegs) : (tempMinus p).1.crc = p.crc := by
  obtain ⟨-, -, h⟩ | ⟨-, h⟩ := tempMinus_cases p <;> simp [h]

@[simp] theorem checksumEnd_crc (policy : ChecksumPolicy) (p : ParserRegs) :
    (checksumEnd policy p).1.crc = p.crc := by
  obtain ⟨-, h⟩ | ⟨-, -, h⟩ | ⟨-, -, h⟩ := checksumEnd_cases policy p <;> simp [h]

/-- No state rule writes the running CRC. -/
theorem stateRule_crc (cfg : Config) (q : PState) (b : Byte) (p : ParserRegs) :
    (stateRule cfg q b p).1.crc = p.crc := by
  cases q <;> simp only [stateRule]
  case initial => unfold stepInitial; split <;> simp
  case idle => unfold stepIdle; split_ifs <;> simp
  case skipping => unfold stepSkipping; split_ifs <;> simp
  case invalid => rfl
  case address => unfold stepAddress; split <;> simp
  case voltage => unfold stepVoltage; split_ifs <;> simp [decTerminator_crc b (commitVolt_crc p)]
  case temperature => unfold stepTemperature; split_ifs <;> simp [decTerminator_crc b (commitTemp_crc p)]
  case button => unfold stepButton; split <;> simp
  case checksum => unfold stepChecksum; split_ifs <;> simp

/-- The running CRC after PARSE is the fold of the byte in the state before it. -/
theorem parseRegs_crc (cfg : Config) (b : Byte) (p : ParserRegs) :
    (parseRegs cfg b p).1.crc = crcFold cfg p.state b p.crc :=
  stateRule_crc cfg p.state b (foldByte cfg b p)

/-- `CrcFold` (R162) with its exceptions named: Checksum, Invalid, and Initial before the frame-start byte. -/
theorem crcFold_eq (cfg : Config) (q : PState) (b : Byte) (r : Word32) :
    crcFold cfg q b r =
      if q = .checksum ∨ q = .invalid then r
      else if q = .initial then if b = colon then crcUpdate (if cfg.crcRestart then 0#32 else r) b else r
      else crcUpdate r b := by
  cases q <;> rfl

/-- Settles O21: only the fold writes the running CRC, and the fold has R162's cases. -/
theorem foldCoversTheFrameOnly : Obligations.FoldCoversTheFrameOnly := by
  refine fun s b => ⟨parseByte b s, exec_parse b s, ?_⟩
  calc
    (parseByte b s).parser.crc = crcFold s.cfg s.parser.state b s.parser.crc := parseRegs_crc s.cfg b s.parser
    _ = _ := crcFold_eq s.cfg s.parser.state b s.parser.crc

/-! `Hex8` (41_crc.md R167). -/

theorem hex8_eq_map (c : Word32) : hex8 c = (List.range 8).map fun k => hexchar (nibble c (7 - k)) := rfl

@[simp] theorem hex8_length (c : Word32) : (hex8 c).length = 8 := rfl

theorem nibble_lt (c : Word32) (k : Nat) : nibble c k < 16 := Nat.mod_lt _ (by decide)

/-- A nibble is the low hex digit of the value shifted down to it. -/
theorem nibble_eq_shift_mod (c : Word32) (k : Nat) : nibble c k = (c >>> (4 * k)).toNat % 16 := by
  simp [nibble, Nat.shiftRight_eq_div_pow, pow_mul]

theorem isHexLc_hexchar {n : Nat} (h : n < 16) : isHexLc (hexchar n) = true := by
  revert n
  decide

/-- The digit `hexchar` writes is the one `hexval` reads. -/
theorem hexval_hexchar {n : Nat} (h : n < 16) : hexval (hexchar n) = n := by
  revert n
  decide

/-- Reading one nibble into the part of the value above it gives the part from that nibble up. -/
theorem hexShift_nibble (c : Word32) (k : Nat) :
    hexShift (c >>> (4 * (k + 1))) (hexchar (nibble c k)) = c >>> (4 * k) := by
  have habove : (c >>> (4 * (k + 1))).toNat = (c >>> (4 * k)).toNat / 16 := by
    simp [Nat.shiftRight_eq_div_pow, Nat.div_div_eq_div_mul, mul_add, pow_add]
  rw [hexShift, hexval_hexchar (nibble_lt c k), nibble_eq_shift_mod, habove, Nat.div_add_mod', BitVec.ofNat_toNat,
    BitVec.setWidth_eq]

/-- The first `n` digits read as the top `n` nibbles. -/
theorem foldl_hexShift_leading (c : Word32) {n : Nat} (h : n ≤ 8) :
    ((List.range n).map fun k => hexchar (nibble c (7 - k))).foldl hexShift 0#32 = c >>> (4 * (8 - n)) := by
  induction n with
  | zero => exact (BitVec.ushiftRight_eq_zero (by decide)).symm
  | succ n ih =>
    have hnext : 8 - n = 7 - n + 1 := by omega
    have hrest : 8 - (n + 1) = 7 - n := by omega
    rw [List.range_succ, List.map_append, List.foldl_append, ih (by omega), hnext, hrest]
    exact hexShift_nibble c (7 - n)

/-- Settles O31: digit `k` is nibble `7 - k`, and the digits read back one nibble at a time. -/
theorem hexDigitsReadBack : Obligations.HexDigitsReadBack := by
  refine fun c => ⟨hex8_length c, fun k hk => ?_, fun x hx => ?_, ?_⟩
  · have hshift : 28 - 4 * k = 4 * (7 - k) := by omega
    simp only [hex8_eq_map, List.getElem?_map, List.getElem?_range hk, Option.map_some, hexchar, hshift,
      nibble_eq_shift_mod]
  · rw [hex8_eq_map] at hx
    obtain ⟨k, -, rfl⟩ := List.mem_map.mp hx
    exact isHexLc_hexchar (nibble_lt c (7 - k))
  · exact foldl_hexShift_leading c le_rfl

/-! The CRC of a byte sequence and the frame. -/

theorem crcFoldBytes_eq_foldl (r : Word32) (bs : List Byte) : crcFoldBytes r bs = bs.foldl crcUpdate r := by
  induction bs generalizing r with
  | nil => rfl
  | cons b bs ih => exact ih (crcUpdate r b)

/-- 41_crc.md R165. -/
theorem crc32_eq_foldl (bs : List Byte) : crc32 bs = bs.foldl crcUpdate 0#32 ^^^ 0xFFFFFFFF#32 := by
  rw [crc32, crcFinal, crcFoldBytes_eq_foldl]

/-- 41_crc.md R165, the inference on the empty sequence. -/
theorem crc32_nil : crc32 [] = 0xFFFFFFFF#32 := rfl

/-- 41_crc.md R168: the check value, of the ASCII bytes `123456789`. -/
theorem crc32_check_value :
    crc32 [0x31#8, 0x32#8, 0x33#8, 0x34#8, 0x35#8, 0x36#8, 0x37#8, 0x38#8, 0x39#8] = 0x765E7680#32 := by
  decide +kernel

/-- Settles O30: the eight shifts of R160 are the model's by unfolding. -/
theorem crcFunctionAndCheckValue : Obligations.CrcFunctionAndCheckValue :=
  ⟨fun _ _ => rfl, crc32_eq_foldl, crc32_nil, crc32_check_value⟩

theorem frameBody_eq_append (payload : List Byte) : frameBody payload = [colon] ++ payload ++ [bar] := rfl

@[simp] theorem frame_length (payload : List Byte) : (frame payload).length = payload.length + 11 := by
  simp [frame, frameBody]

/-- Settles O32: two markers, eight digits and the newline are the eleven bytes beside the payload. -/
theorem frameOfAPayload : Obligations.FrameOfAPayload := fun payload =>
  ⟨by rw [frame, frameBody_eq_append], frame_length payload⟩

end Sys2Proof.Machine

/-! PROOFS of the arbiter family: NOP, CAN_SEND, SEND and both forms of RECV (spec/42_arbiter.md). -/

namespace Sys2Proof.Machine

/-! The operations of the Arbiter configuration, from the command word to the next state. -/

theorem decodeCommand_nop {w : CmdWord} (h : opField w = 0#3) : decodeCommand w = .nop := by
  simp [decodeCommand, h]

theorem decodeCommand_canSend {w : CmdWord} (h : opField w = 3#3) : decodeCommand w = .canSend := by
  simp [decodeCommand, h]

theorem exec_nop (s : State) : exec .nop s = .next s := rfl

theorem exec_canSend (s : State) : exec .canSend s = .next (s.withCs (canSend s.cfg s.arb.turn)) := rfl

theorem exec_recvByte (b : Byte) (s : State) : exec (.recvByte b) s = .next (recvByte b s) := rfl

theorem exec_recvIdle (s : State) : exec .recvIdle s = .next (recvIdle s) := rfl

/-! The output `can_send` (10_state.md R40). -/

theorem canSend_iff (cfg : Config) (turn : Turn) : canSend cfg turn = true ↔ turn.toInt = (cfg.myAddr.toNat : Int) :=
  decide_eq_true_iff

/-- The sentinel is below every slot address. -/
theorem canSend_sentinel (cfg : Config) : canSend cfg (-1#5) = false := by
  have hsentinel : (-1#5 : Turn).toInt = -1 := by decide
  rw [← Bool.not_eq_true, canSend_iff, hsentinel]
  omega

/-! SEND where the transport completes. -/

theorem sendActions_eq_append (payload : List Byte) :
    sendActions payload = [.setDir .tx] ++ (frame payload).map .write ++ [.flush, .setDir .rx] := rfl

/-- The state after a SEND that completes, field by field. -/
theorem sendFrame_eq (s : State) :
    sendFrame s =
      { s with
        tx := s.tx ++ sendActions s.port.payload
        arb := claimTurn s.cfg s.port.now s.arb
        ghost := s.ghost ++ sendGhost s.cfg s.arb.turn } := rfl

/-! RECV with a byte, by what PARSE of the byte returns. -/

/-- 42_arbiter.md R193: no emission leaves bus activity and PARSE. -/
theorem recvByte_of_silent {b : Byte} {s : State} (h : (parseByte b s).msg = none) :
    recvByte b s = { parseByte b s with arb := busActivity s.cfg s.port.now s.arb } := by
  have hemit : emitTest (parseRegs s.cfg b s.parser).1 = none := h
  rw [recvByte_eq, hemit]

/-- 42_arbiter.md R192: an emission PRESETs the Parser and snaps the turn to the sender. -/
theorem recvByte_of_emission {b : Byte} {s : State} {m : Message} (h : (parseByte b s).msg = some m) :
    recvByte b s =
      { parseByte b s with
        parser := ParserRegs.reset
        arb := snapTurn m (busActivity s.cfg s.port.now s.arb) } := by
  have hemit : emitTest (parseRegs s.cfg b s.parser).1 = some m := h
  rw [recvByte_eq, hemit]
  rfl

/-! What the receiving operations leave to SEND: the direction and the requests to the transport (42_arbiter.md R184). -/

@[simp] theorem parseByte_tx (b : Byte) (s : State) : (parseByte b s).tx = s.tx := by
  rw [parseByte_eq]

@[simp] theorem parseByte_arb (b : Byte) (s : State) : (parseByte b s).arb = s.arb := by
  rw [parseByte_eq]

@[simp] theorem recvByte_tx (b : Byte) (s : State) : (recvByte b s).tx = s.tx := by
  rw [recvByte_eq]
  split <;> exact parseByte_tx b s

@[simp] theorem recvByte_dir (b : Byte) (s : State) : (recvByte b s).arb.dir = s.arb.dir := by
  rw [recvByte_eq]
  split <;> rfl

@[simp] theorem advance_tx (now k : Nat) (s : State) : (advance now k s).tx = s.tx := by
  simp [advance]

@[simp] theorem advance_dir (now k : Nat) (s : State) : (advance now k s).arb.dir = s.arb.dir := by
  simp [advance, advanceArb]

/-- RECV with no byte, whether the turn advances or not, under any configuration. -/
@[simp] theorem recvIdle_tx (s : State) : (recvIdle s).tx = s.tx := by
  obtain ⟨k, hk, -, -⟩ | hq := recvIdle_cases s
  · simp [hk]
  · simp [hq]

@[simp] theorem recvIdle_dir (s : State) : (recvIdle s).arb.dir = s.arb.dir := by
  obtain ⟨k, hk, -, -⟩ | hq := recvIdle_cases s
  · simp [hk]
  · simp [hq]

/-- 42_arbiter.md R184: the direction is TX inside one SEND only, so every other operation leaves it and the transport. -/
theorem exec_keeps_transport {i : Instr} {s s' : State} (h : exec i s = .next s') (hi : i ≠ .send) :
    s'.tx = s.tx ∧ s'.arb.dir = s.arb.dir := by
  obtain ⟨-, rfl⟩ | ⟨b, -, rfl⟩ | ⟨-, rfl⟩ | ⟨-, rfl⟩ | ⟨hsend, -, -⟩ | ⟨k, hsend, -, -⟩ | ⟨b, -, rfl⟩ | ⟨-, rfl⟩ :=
    exec_next_cases h
  · exact ⟨rfl, rfl⟩
  · simp
  · simp
  · simp
  · exact absurd hsend hi
  · exact absurd hsend hi
  · simp
  · simp

/-! The obligations. -/

/-- Settles O43: the elapsed time and the grace are the model's own, and the guard of R195 separates the two outcomes. -/
theorem silenceAdvancesTheTurn : Obligations.SilenceAdvancesTheTurn := by
  rintro s ⟨hcycle, -⟩
  refine ⟨elapsed s.cfg.timeWidth s.port.now s.arb.last, grace s.cfg s.arb.idle, elapsed_eq_emod .., rfl,
    recvIdle s, exec_recvIdle s, ?_⟩
  split
  case isTrue helapsed =>
    rw [recvIdle_advances hcycle helapsed]
    exact ⟨rfl, turnPlus_toInt ..⟩
  case isFalse helapsed => exact recvIdle_quiet hcycle helapsed

/-- Settles O52: the bytes a completing SEND writes are the frame of its payload. -/
theorem directionIsReceiveOnEveryExit : Obligations.DirectionIsReceiveOnEveryExit := by
  refine fun i s s' h => ⟨exec_keeps_transport h, ?_⟩
  rintro rfl hcompletes
  obtain rfl : sendFrame s = s' := by simpa [exec_send hcompletes] using h
  rw [sendFrame_eq, sendActions_eq_append]
  exact ⟨rfl, frame s.port.payload, rfl⟩

/-- Settles O38: the op field alone selects NOP. -/
theorem nopLeavesTheState : Obligations.NopLeavesTheState :=
  ⟨exec_nop, fun _ => decodeCommand_nop⟩

/-- Settles O39: the result is the output `can_send`. -/
theorem canSendComparesTheTurn : Obligations.CanSendComparesTheTurn := by
  refine ⟨fun s => ⟨canSend s.cfg s.arb.turn, exec_canSend s, canSend_iff .., fun hsentinel => ?_, rfl⟩,
    fun _ => decodeCommand_canSend⟩
  rw [hsentinel, canSend_sentinel]

/-- Settles O40: the ghost record left open is that of R240. -/
theorem sendTransmitsAndClaimsTheTurn : Obligations.SendTransmitsAndClaimsTheTurn := by
  refine fun s hcompletes => ⟨s.ghost ++ sendGhost s.cfg s.arb.turn, ?_⟩
  rw [exec_send hcompletes, sendFrame_eq, sendActions_eq_append]
  rfl

/-- Settles O42: RECV emits exactly when PARSE of the byte does. -/
theorem recvByteParsesAndSnapsTheTurn : Obligations.RecvByteParsesAndSnapsTheTurn := by
  refine fun s b => ⟨parseByte b s, exec_parse b s, ?_⟩
  rw [exec_recvByte]
  split
  case h_1 hmsg => rw [recvByte_of_silent hmsg]; rfl
  case h_2 m hmsg => rw [recvByte_of_emission hmsg]; rfl

end Sys2Proof.Machine

/-! PROOFS of the exceptions family: entering Invalid and staying in it (spec/60_exceptions.md R222, R224). -/

namespace Sys2Proof.Machine

/-! A state rule that ends in Invalid has saved nothing (60_exceptions.md R222). -/

/-- What R222 asks of a rule's result `r`, run on the registers `p` after the fold. -/
def SavesNothing (p : ParserRegs) (r : Ruled) : Prop := r.1.state = .invalid → r.1 = gotoState .invalid p

@[simp] theorem gotoInvalid_savesNothing (x : Violation) (p : ParserRegs) : SavesNothing p (gotoInvalid x p) :=
  fun _ => rfl

/-- A rule that ends outside Invalid is not concerned. (Hypotheses of these `simp` rules are written in the normal form
`¬ a = b`.) -/
@[simp] theorem ruleOk_savesNothing {p q : ParserRegs} (h : ¬ q.state = .invalid) : SavesNothing p (ruleOk q) :=
  fun hinvalid => absurd hinvalid h

@[simp] theorem decDigit_savesNothing (b : Byte) {p : ParserRegs} (h : ¬ p.state = .invalid) :
    SavesNothing p (decDigit b p) := by
  obtain ⟨-, hr⟩ | ⟨-, hr⟩ := decDigit_cases b p <;> simp [hr, h]

@[simp] theorem decTerminator_savesNothing (commit : ParserRegs → ParserRegs) (b : Byte) (p : ParserRegs) :
    SavesNothing p (decTerminator commit b p) := by
  obtain ⟨-, hr⟩ | ⟨-, hr⟩ := decTerminator_cases commit b p
  · simp [hr]
  · have hstate : (if b = sp then PState.idle else .checksum) ≠ .invalid := by split <;> simp
    simp [hr, hstate]

@[simp] theorem tempMinus_savesNothing {p : ParserRegs} (h : ¬ p.state = .invalid) :
    SavesNothing p (tempMinus p) := by
  obtain ⟨-, -, hr⟩ | ⟨-, hr⟩ := tempMinus_cases p <;> simp [hr, h]

@[simp] theorem checksumEnd_savesNothing (policy : ChecksumPolicy) (p : ParserRegs) :
    SavesNothing p (checksumEnd policy p) := by
  obtain ⟨-, hr⟩ | ⟨-, -, hr⟩ | ⟨-, -, hr⟩ := checksumEnd_cases policy p <;> simp [hr]

/-- Every violation runs before the rule has written a register. -/
theorem stateRule_savesNothing (cfg : Config) (q : PState) (b : Byte) {p : ParserRegs} (h : p.state ≠ .invalid) :
    SavesNothing p (stateRule cfg q b p) := by
  cases q <;> simp only [stateRule]
  case initial => unfold stepInitial; split <;> simp [h]
  case idle => unfold stepIdle; split_ifs <;> simp [h]
  case skipping => unfold stepSkipping; split_ifs <;> simp [h]
  case invalid => exact ruleOk_savesNothing h
  case address => unfold stepAddress; split <;> simp
  case voltage => unfold stepVoltage; split_ifs <;> simp [h]
  case temperature => unfold stepTemperature; split_ifs <;> simp [h]
  case button => unfold stepButton; split <;> simp
  case checksum => unfold stepChecksum; split_ifs <;> simp [hexDigit, h]

/-! Which operations enter Invalid, and with which byte. -/

/-- PARSE enters Invalid from the registers after the fold, and returns no Message. -/
theorem parseByte_enters_invalid {b : Byte} {s : State} (hs : s.parser.state ≠ .invalid)
    (h : (parseByte b s).parser.state = .invalid) :
    (parseByte b s).parser = gotoState .invalid (foldByte s.cfg b s.parser) ∧ (parseByte b s).msg = none :=
  ⟨stateRule_savesNothing s.cfg s.parser.state b (p := foldByte s.cfg b s.parser) hs h,
    emitTest_of_ne_initial (p := (parseByte b s).parser) (by simp [h])⟩

/-- RECV of a byte that ends in Invalid has not emitted: an emission would have PRESET the Parser. -/
theorem recvByte_of_invalid {b : Byte} {s : State} (h : (recvByte b s).parser.state = .invalid) :
    recvByte b s = { parseByte b s with arb := busActivity s.cfg s.port.now s.arb } := by
  cases hmsg : (parseByte b s).msg with
  | none => exact recvByte_of_silent hmsg
  | some m => simp [recvByte_of_emission hmsg, ParserRegs.reset] at h

/-- The silence rule never enters Invalid: it leaves the Parser alone or PRESETs it. -/
theorem recvIdle_parser (s : State) : (recvIdle s).parser = s.parser ∨ (recvIdle s).parser = ParserRegs.reset := by
  obtain ⟨k, hk, -, -⟩ | hq := recvIdle_cases s
  · exact .inr (by simp [hk, advance, preset_eq_reset])
  · exact .inl (by simp [hq])

/-- Only an operation that consumes a byte enters Invalid. -/
theorem exec_enters_invalid {i : Instr} {s s' : State} (h : exec i s = .next s') (hs : s.parser.state ≠ .invalid)
    (hs' : s'.parser.state = .invalid) :
    ∃ b, ((i = .parse b ∨ tokenByte i = some b) ∧ s' = parseByte b s) ∨ (i = .recvByte b ∧ s' = recvByte b s) := by
  obtain ⟨-, rfl⟩ | ⟨b, hi, rfl⟩ | ⟨-, rfl⟩ | ⟨-, rfl⟩ | ⟨-, -, rfl⟩ | ⟨k, -, -, rfl⟩ | ⟨b, hi, rfl⟩ | ⟨-, rfl⟩ :=
    exec_next_cases h
  · exact absurd hs' hs
  · exact ⟨b, .inl ⟨hi, rfl⟩⟩
  · simp [ParserRegs.reset] at hs'
  · exact absurd hs' hs
  · exact absurd hs' hs
  · exact absurd hs' hs
  · exact ⟨b, .inr ⟨hi, rfl⟩⟩
  · obtain hp | hp := recvIdle_parser s
    · exact absurd (hp ▸ hs') hs
    · simp [hp, ParserRegs.reset] at hs'

/-- A token is encoded as the byte it consumes. -/
theorem encode_of_tokenByte {i : Instr} {b : Byte} (h : tokenByte i = some b) : encode i = .wire b := by
  cases i <;> cases h <;> rfl

/-! The obligations. -/

/-- Settles O25: the byte's rule saves nothing, whether PARSE, a token or RECV runs it. -/
theorem enteringInvalidSavesNothing : Obligations.EnteringInvalidSavesNothing := by
  intro i s s' h hs hs'
  obtain ⟨b, ⟨hi, rfl⟩ | ⟨hi, rfl⟩⟩ := exec_enters_invalid h hs hs'
  · obtain ⟨hparser, hmsg⟩ := parseByte_enters_invalid hs hs'
    exact ⟨b, hi.elim .inl fun htoken => .inr (.inr (encode_of_tokenByte htoken)), hparser, hmsg, rfl, rfl, rfl, rfl⟩
  · have hrecv := recvByte_of_invalid hs'
    rw [hrecv] at hs' ⊢
    obtain ⟨hparser, hmsg⟩ := parseByte_enters_invalid hs hs'
    exact ⟨b, .inr (.inl hi), hparser, hmsg, rfl, rfl, rfl, rfl⟩

/-- In Invalid nothing is folded and nothing moves. -/
theorem parseRegs_invalid {cfg : Config} {b : Byte} {p : ParserRegs} (h : p.state = .invalid) :
    parseRegs cfg b p = ruleOk p :=
  parseRegs_of_fold h rfl

/-- Settles O19: the rule of Invalid leaves the registers, so no Message and no violation. -/
theorem invalidIgnoresEveryByte : Obligations.InvalidIgnoresEveryByte := fun _ _ hs =>
  exec_parse_silent_ruleOk (parseRegs_invalid hs) (by simp [hs])

end Sys2Proof.Machine

/-! PROOFS of the encoding, both ways (spec/30_encoding.md sections 1, 2 and 7), and of the step that runs a placed or
pending word. -/

namespace Sys2Proof.Machine

/-! Wire tokens. -/

/-- A letter of UPOTHER is no byte that another token owns. -/
theorem decodeWire_of_isUpOther {b : Byte} (h : isUpOther b = true) : decodeWire b = .ok (.fieldUnknown b) := by
  have hclass : ∀ x ∈ [colon, letA, letV, letT, letB, sp, bar, nl, cr], isUpOther x = false := by decide
  have howned : ∀ x ∈ [colon, letA, letV, letT, letB, sp, bar, nl, cr], b ≠ x := by
    intro x hx hbx
    simp [hbx, hclass x hx] at h
  simp only [List.forall_mem_cons, List.not_mem_nil, false_imp_iff, implies_true, and_true] at howned
  simp only [decodeWire, howned, h, if_true, if_false]

/-- The only operand of a token that is restricted comes from the class the decoder tests. -/
theorem wellFormed_of_decodeWire {b : Byte} {i : Instr} (h : decodeWire b = .ok i) : i.wellFormed = true := by
  cases i with
  | fieldUnknown letter =>
    unfold decodeWire at h
    split_ifs at h <;> cases h
    assumption
  | _ => rfl

/-! Command words. -/

/-- The decoder reads `op`, `v` under op 101, and `b` under PARSE and under RECV with `v = 1`. -/
theorem decodeCommand_congr {w w' : CmdWord} (hop : opField w = opField w')
    (hv : opField w = 5#3 → vField w = vField w')
    (hb : opField w = 1#3 ∨ (opField w = 5#3 ∧ vField w = true) → bField w = bField w') :
    decodeCommand w = decodeCommand w' := by
  simp only [decodeCommand, ← hop]
  by_cases h1 : opField w = 1#3
  · rw [hb (.inl h1)]
    simp [h1]
  by_cases h5 : opField w = 5#3
  · cases hval : vField w with
    | false => simp [h5, ← hv h5, hval]
    | true => simp [h5, ← hv h5, hval, hb (.inr ⟨h5, hval⟩)]
  · simp [h1, h5]

theorem wellFormed_decodeCommand (w : CmdWord) : (decodeCommand w).wellFormed = true := by
  unfold decodeCommand
  split_ifs <;> rfl

/-- The encoder writes back the operation code and every field the decoder has read. -/
theorem encode_decodeCommand (w : CmdWord) :
    ∃ b v, encode (decodeCommand w) = .command (cmdWord b v (opField w)) ∧ (opField w = 5#3 → v = vField w) ∧
      (opField w = 1#3 ∨ (opField w = 5#3 ∧ vField w = true) → b = bField w) := by
  obtain h | h | h | h | h | h | h | h := opField_cases w
  case inr.inl => exact ⟨bField w, false, by simp [decodeCommand, encode, h], by simp [h], fun _ => rfl⟩
  case inr.inr.inr.inr.inr.inl =>
    cases hv : vField w
    · exact ⟨0#8, false, by simp [decodeCommand, encode, h, hv], by simp, by simp [h]⟩
    · exact ⟨bField w, true, by simp [decodeCommand, encode, h, hv], by simp, fun _ => rfl⟩
  all_goals exact ⟨0#8, false, by simp [decodeCommand, encode, h], by simp [h], by simp [h]⟩

/-- Settles O2: the fields of a command word read back, and each token's byte selects its own row. -/
theorem decodeOfEncodeIsTheOperation : Obligations.DecodeOfEncodeIsTheOperation := by
  intro i hi
  cases i with
  | fieldUnknown letter => exact decodeWire_of_isUpOther hi
  | nop | preset | canSend | send | recvIdle | reserved110 | reserved111 => simp [encode, decode, decodeCommand]
  | parse b | recvByte b => simp [encode, decode, decodeCommand]
  | frameStart | fieldA | fieldV | fieldT | fieldB | separatorSp | checksumStart | frameEnd | checksumCr => rfl

/-- Settles O3: a token's byte is the one it consumes; a command word comes back with the fields that were read. -/
theorem decodedOperationsEncodeBack : Obligations.DecodedOperationsEncodeBack := by
  refine ⟨fun b i h => ⟨wellFormed_of_decodeWire h, encode_of_tokenByte (tokenByte_of_decodeWire h)⟩,
    fun w => ⟨wellFormed_decodeCommand w, ?_⟩⟩
  obtain ⟨b, v, hword, hv, hb⟩ := encode_decodeCommand w
  refine ⟨cmdWord b v (opField w), hword, opField_cmdWord .., Eq.symm ?_⟩
  exact decodeCommand_congr (by simp) (by simpa using fun h => (hv h).symm) (by simpa using fun h => (hb h).symm)

/-! The step on the oldest pending move. -/

/-- A call outside a hung SEND. -/
theorem step_call {s : State} {w : CmdWord} {now : Nat} {payload : List Byte} {stall : Option Nat} {rest : List Event}
    (hhung : s.hung = false) (hinbox : s.inbox = .call w now payload stall :: rest) :
    step s = exec (decodeCommand w) (latchCall s rest ⟨now, payload, stall⟩) := by
  simp only [step_of_not_hung hhung, nextOperation, hinbox]

/-- A wire byte outside a hung SEND. -/
theorem step_wire {s : State} {b : Byte} {rest : List Event} (hhung : s.hung = false)
    (hinbox : s.inbox = .wire b :: rest) : step s = exec (wireInstr b) (latchCall s rest s.port) := by
  simp only [step_of_not_hung hhung, nextOperation, hinbox]

theorem wireInstr_of_ok {b : Byte} {i : Instr} (h : decodeWire b = .ok i) : wireInstr b = i := by
  simp only [wireInstr, h]

theorem wireInstr_of_error {b x : Byte} (h : decodeWire b = .error (.notAToken x)) : wireInstr b = .parse b := by
  simp only [wireInstr, h, decodeWire_error h]

/-- Inside a hung SEND a call at the head is never taken, whatever it is. -/
theorem step_hung_call {s : State} (hhung : s.hung = true) (w w' : CmdWord) (now : Nat) (payload : List Byte)
    (stall : Option Nat) (rest : List Event) :
    step { s with inbox := .call w now payload stall :: rest } =
      step { s with inbox := .call w' now payload stall :: rest } := by
  simp [step, blocked, admitted, hhung, Event.isPowerOn]

/-- Settles O4: the two words decode alike, and a hung SEND takes neither. -/
theorem ignoredBitsChangeNoStep : Obligations.IgnoredBitsChangeNoStep := by
  intro s w w' now payload stall rest hop hv hb
  obtain hhung | hhung := Bool.eq_false_or_eq_true s.hung
  · exact step_hung_call hhung ..
  · have hdecode : decodeCommand w = decodeCommand w' := decodeCommand_congr hop hv hb
    rw [step_call (s := { s with inbox := .call w now payload stall :: rest }) hhung rfl,
      step_call (s := { s with inbox := .call w' now payload stall :: rest }) hhung rfl, hdecode]
    rfl

/-- Settles O7: the word placed is the oldest pending move, and it decodes to the operation it encodes. -/
theorem placedWordRunsNext : Obligations.PlacedWordRunsNext := by
  constructor
  · intro s i w hi hw
    have hdecode : decodeCommand w = i := by simpa [hw, decode] using decodeOfEncodeIsTheOperation i hi
    have hplaced : s.withFetchWord 16 w.toNat =
        { s with inbox := .call w s.port.now s.port.payload none :: s.inbox, hung := false } := by
      simp [State.withFetchWord, placeTableWord, tableEncoded]
    rw [hplaced, step_call rfl rfl, hdecode]
    rfl
  · intro s i b hi hb
    have hdecode : decodeWire b = .ok i := by simpa [hb, decode] using decodeOfEncodeIsTheOperation i hi
    have hplaced : s.withFetchWord 8 b.toNat = { s with inbox := .wire b :: s.inbox, hung := false } := by
      simp [State.withFetchWord, placeTableWord, tableEncoded]
    rw [hplaced, step_wire rfl rfl, wireInstr_of_ok hdecode]
    rfl

/-- Settles O1: each word is evaluated by the decoder. -/
theorem wordsOfTheTablesDecode : Obligations.WordsOfTheTablesDecode := by
  unfold Obligations.WordsOfTheTablesDecode
  decide

/-- Settles O5: the three forms of an oldest pending move. -/
theorem stepRunsTheDecodedOperation : Obligations.StepRunsTheDecodedOperation := by
  refine ⟨fun s w now payload stall rest hhung hinbox => step_call hhung hinbox,
    fun s b i rest hhung hinbox hb => ?_, fun s b x rest hhung hinbox hb => ?_⟩
  · rw [step_wire hhung hinbox, wireInstr_of_ok hb]
    rfl
  · rw [step_wire hhung hinbox, wireInstr_of_error hb]
    rfl

/-- Settles O6: with an empty list of moves the block is not stuck, and no move is taken. -/
theorem noPendingMoveHoldsTheState : Obligations.NoPendingMoveHoldsTheState := by
  intro s hinbox
  have hblocked : blocked s = false := by simp [blocked, hinbox]
  have hadmitted : admitted s = s := by
    obtain ⟨⟩ := s
    subst hinbox
    simp [admitted]
  simp [step, hblocked, hadmitted, nextOperation, withoutOperation, hinbox]

end Sys2Proof.Machine

/-! PROOFS of the whole machine's statements: the invariants every step keeps (spec/10_state.md section 5), power-on
reset (spec/70_reset_and_hazards.md section 1), and what a step reads and stops for (spec/60_exceptions.md). -/

namespace Sys2Proof.Machine

/-! What one operation can do to the turn and to `A.last`. -/

/-- The turn is kept, claimed, snapped to a sender, or advanced. -/
theorem exec_turn_cases {i : Instr} {s s' : State} (h : exec i s = .next s') :
    s'.arb.turn = s.arb.turn ∨
    (i = .send ∧ s'.arb.turn = slotTurn s.cfg.myAddr) ∨
    (∃ b m, i = .recvByte b ∧ s'.msg = some m ∧ s'.arb.turn = slotTurn m.address) ∨
    (∃ k, i = .recvIdle ∧ s' = (advance s.port.now k s).withMsg none ∧
      grace s.cfg s.arb.idle + s.cfg.cycleUs ≤ elapsed s.cfg.timeWidth s.port.now s.arb.last ∧
      k = (elapsed s.cfg.timeWidth s.port.now s.arb.last - grace s.cfg s.arb.idle) / s.cfg.cycleUs) := by
  obtain ⟨-, rfl⟩ | ⟨b, -, rfl⟩ | ⟨-, rfl⟩ | ⟨-, rfl⟩ | ⟨hi, -, rfl⟩ | ⟨k, -, -, rfl⟩ | ⟨b, hi, rfl⟩ | ⟨hi, rfl⟩ :=
    exec_next_cases h
  · exact .inl rfl
  · exact .inl rfl
  · exact .inl rfl
  · exact .inl rfl
  · exact .inr (.inl ⟨hi, rfl⟩)
  · exact .inl rfl
  · cases hmsg : (parseByte b s).msg with
    | none => exact .inl (by rw [recvByte_of_silent hmsg]; rfl)
    | some m => exact .inr (.inr (.inl ⟨b, m, hi, by rw [recvByte_of_emission hmsg]; exact ⟨hmsg, rfl⟩⟩))
  · obtain ⟨k, hk, hreach, hcount⟩ | hquiet := recvIdle_cases s
    · exact .inr (.inr (.inr ⟨k, hi, hk, hreach, hcount⟩))
    · exact .inl (by simp [hquiet])

theorem advance_turn_toInt (now k : Nat) (s : State) :
    (advance now k s).arb.turn.toInt = (s.arb.turn.toInt + (k : Int)) % 16 :=
  turnPlus_toInt s.arb.turn k

/-- A turn that an operation writes is a slot. -/
theorem exec_turn_range {i : Instr} {s s' : State} (h : exec i s = .next s') :
    s'.arb.turn = s.arb.turn ∨ (0 ≤ s'.arb.turn.toInt ∧ s'.arb.turn.toInt ≤ 15) := by
  obtain hkeep | ⟨-, hclaim⟩ | ⟨b, m, -, -, hsnap⟩ | ⟨k, -, rfl, -, -⟩ := exec_turn_cases h
  · exact .inl hkeep
  · exact .inr (hclaim ▸ slotTurn_range s.cfg.myAddr)
  · exact .inr (hsnap ▸ slotTurn_range m.address)
  · refine .inr ?_
    rw [State.withMsg_arb, advance_turn_toInt]
    omega

/-- Settles O51: a turn that is kept is below 16 by its width. -/
theorem turnNeverReturnsToTheSentinel : Obligations.TurnNeverReturnsToTheSentinel := by
  intro i s s' h hturn
  obtain hkeep | hrange := exec_turn_range h
  · have hlt := BitVec.toInt_lt (x := s.arb.turn)
    rw [hkeep]
    omega
  · exact hrange

/-- `A.last` is kept, or is the clock cut to its width. -/
theorem exec_last_cases {i : Instr} {s s' : State} (h : exec i s = .next s') :
    s'.arb.last = s.arb.last ∨ s'.arb.last = truncTime s.cfg.timeWidth s.port.now := by
  obtain ⟨-, rfl⟩ | ⟨b, -, rfl⟩ | ⟨-, rfl⟩ | ⟨-, rfl⟩ | ⟨-, -, rfl⟩ | ⟨k, -, -, rfl⟩ | ⟨b, -, rfl⟩ | ⟨-, rfl⟩ :=
    exec_next_cases h
  · exact .inl rfl
  · exact .inl rfl
  · exact .inl rfl
  · exact .inl rfl
  · exact .inr rfl
  · exact .inl rfl
  · rw [recvByte_eq]
    split <;> exact .inr rfl
  · obtain ⟨k, hk, -, -⟩ | hquiet := recvIdle_cases s
    · exact .inr (by rw [hk]; rfl)
    · exact .inl (by rw [hquiet]; rfl)

/-! What one operation can do to the Parser, to the Message it returns, and to the hang. -/

theorem arbiterOp_of_tokenByte {i : Instr} {b : Byte} (h : tokenByte i = some b) : arbiterOp i = false := by
  cases i with
  | nop | canSend | send | recvByte _ | recvIdle => cases h
  | _ => rfl

/-- The Parser is kept, PRESET, or moved by one byte; in the Arbiter configuration a byte that emits PRESETs it. -/
theorem exec_parser_cases {i : Instr} {s s' : State} (h : exec i s = .next s') :
    s'.parser = s.parser ∨ s'.parser = ParserRegs.reset ∨
    ∃ b, s'.parser = (parseRegs s.cfg b s.parser).1 ∧ (arbiterOp i = true → emitTest s'.parser = none) := by
  obtain ⟨-, rfl⟩ | ⟨b, hi, rfl⟩ | ⟨-, rfl⟩ | ⟨-, rfl⟩ | ⟨-, -, rfl⟩ | ⟨k, -, -, rfl⟩ | ⟨b, -, rfl⟩ | ⟨-, rfl⟩ :=
    exec_next_cases h
  · exact .inl rfl
  · refine .inr (.inr ⟨b, rfl, fun harbiter => ?_⟩)
    obtain rfl | htoken := hi
    · cases harbiter
    · simp [arbiterOp_of_tokenByte htoken] at harbiter
  · exact .inr (.inl rfl)
  · exact .inl rfl
  · exact .inl rfl
  · exact .inl rfl
  · cases hmsg : (parseByte b s).msg with
    | none =>
      rw [recvByte_of_silent hmsg]
      exact .inr (.inr ⟨b, rfl, fun _ => hmsg⟩)
    | some m => exact .inr (.inl (by rw [recvByte_of_emission hmsg]))
  · exact (recvIdle_parser s).imp id .inl

/-- A Message comes from the emission test after a byte. -/
theorem exec_msg_cases {i : Instr} {s s' : State} (h : exec i s = .next s') :
    s'.msg = s.msg ∨ s'.msg = none ∨ ∃ b, s'.msg = emitTest (parseRegs s.cfg b s.parser).1 := by
  obtain ⟨-, rfl⟩ | ⟨b, -, rfl⟩ | ⟨-, rfl⟩ | ⟨-, rfl⟩ | ⟨-, -, rfl⟩ | ⟨k, -, -, rfl⟩ | ⟨b, -, rfl⟩ | ⟨-, rfl⟩ :=
    exec_next_cases h
  · exact .inl rfl
  · exact .inr (.inr ⟨b, rfl⟩)
  · exact .inl rfl
  · exact .inl rfl
  · exact .inl rfl
  · exact .inl rfl
  · refine .inr (.inr ⟨b, ?_⟩)
    rw [recvByte_eq]
    split <;> rfl
  · exact .inr (.inl rfl)

theorem parseByte_hung (b : Byte) (s : State) : (parseByte b s).hung = s.hung := by rw [parseByte_eq]

/-- Only SEND hangs. -/
theorem exec_keeps_hung {i : Instr} {s s' : State} (h : exec i s = .next s') (hi : i ≠ .send) : s'.hung = s.hung := by
  obtain ⟨-, rfl⟩ | ⟨b, -, rfl⟩ | ⟨-, rfl⟩ | ⟨-, rfl⟩ | ⟨hsend, -, -⟩ | ⟨k, hsend, -, -⟩ | ⟨b, -, rfl⟩ | ⟨-, rfl⟩ :=
    exec_next_cases h
  · rfl
  · exact parseByte_hung b s
  · rfl
  · rfl
  · exact absurd hsend hi
  · exact absurd hsend hi
  · rw [recvByte_eq]
    split <;> rfl
  · obtain ⟨k, hk, -, -⟩ | hquiet := recvIdle_cases s
    · rw [hk]; rfl
    · rw [hquiet]; rfl

/-! The invariants (10_state.md R44). -/

theorem exec_parser_inv {i : Instr} {s s' : State} (h : exec i s = .next s') (hinv : s.parser.inv) : s'.parser.inv := by
  obtain hkeep | hreset | ⟨b, hbyte, -⟩ := exec_parser_cases h
  · rwa [hkeep]
  · rw [hreset]
    exact ParserRegs.reset_inv
  · rw [hbyte]
    exact parseRegs_inv hinv

theorem exec_arb_inv {i : Instr} {s s' : State} (h : exec i s = .next s') (hinv : s.arb.inv s.cfg) :
    s'.arb.inv s'.cfg := by
  obtain ⟨hlow, hhigh, hlast⟩ := hinv
  have hturn' : -1 ≤ s'.arb.turn.toInt ∧ s'.arb.turn.toInt ≤ 15 := by
    obtain hkeep | hrange := exec_turn_range h
    · rw [hkeep]
      exact ⟨hlow, hhigh⟩
    · omega
  have hlast' : s'.arb.last < 2 ^ s.cfg.timeWidth := by
    obtain hkeep | hnow := exec_last_cases h
    · rwa [hkeep]
    · rw [hnow]
      exact truncTime_lt _ _
  rw [exec_cfg h]
  exact ⟨hturn'.1, hturn'.2, hlast'⟩

/-- R44 item 7: SEND ends at RX or hangs at TX, and no other operation touches the direction. -/
theorem exec_dirInv {i : Instr} {s s' : State} (h : exec i s = .next s') (hhung : s.hung = false) (hinv : dirInv s) :
    dirInv s' := by
  by_cases hi : i = .send
  · subst hi
    cases hstall : s.port.txStall with
    | none =>
      obtain rfl : sendFrame s = s' := by simpa [exec_send hstall] using h
      simp [dirInv, sendFrame_eq, claimTurn, hhung]
    | some k =>
      obtain rfl : hangInSend k s = s' := by simpa [exec_send_stalled hstall] using h
      rfl
  · rw [dirInv, (exec_keeps_transport h hi).2, exec_keeps_hung h hi]
    exact hinv

theorem exec_inv {i : Instr} {s s' : State} (h : exec i s = .next s') (hhung : s.hung = false) (hinv : s.inv) :
    s'.inv := by
  obtain ⟨hcfg, hparser, harb, hdir⟩ := hinv
  exact ⟨by rwa [exec_cfg h], exec_parser_inv h hparser, exec_arb_inv h harb, exec_dirInv h hhung hdir⟩

theorem powerOnReset_inv {s : State} (hcfg : s.cfg.valid) (rest : List Event) (t : Nat) :
    (powerOnReset s rest t).inv :=
  ⟨hcfg, ParserRegs.reset_inv, ArbRegs.reset_inv s.cfg t, rfl⟩

/-- Settles O55: an operation runs outside a hung SEND and keeps each part, and a reset meets the invariant anew. -/
theorem stepKeepsTheInvariant : Obligations.StepKeepsTheInvariant := by
  intro s s' hinv h
  obtain ⟨i, t, hhung, hop, hexec⟩ | ⟨pre, t, rest, -, -, rfl⟩ | rfl := step_next_cases h
  · obtain ⟨e, rest, p, -, rfl, -⟩ := nextOperation_cases hop
    exact exec_inv hexec hhung hinv
  · exact powerOnReset_inv hinv.1 rest t
  · exact hinv

/-- Item 8: a Message that RECV completes is followed by PRESET, so no address outlives it. -/
theorem exec_initial_unaddressed {i : Instr} {s s' : State} (h : exec i s = .next s') (hi : arbiterOp i = true)
    (hinv : s.parser.state = .initial → s.parser.addrV = false) :
    s'.parser.state = .initial → s'.parser.addrV = false := by
  obtain hkeep | hreset | ⟨b, -, hsilent⟩ := exec_parser_cases h
  · rwa [hkeep]
  · rw [hreset]
    exact fun _ => rfl
  · exact (emitTest_eq_none s'.parser).mp (hsilent hi)

/-- The moves left after an operation are those that stood behind it. -/
theorem exec_inbox {i : Instr} {s s' : State} (h : exec i s = .next s') : s'.inbox = s.inbox := by
  obtain ⟨-, rfl⟩ | ⟨b, -, rfl⟩ | ⟨-, rfl⟩ | ⟨-, rfl⟩ | ⟨-, -, rfl⟩ | ⟨k, -, -, rfl⟩ | ⟨b, -, rfl⟩ | ⟨-, rfl⟩ :=
    exec_next_cases h
  · rfl
  · rfl
  · rfl
  · rfl
  · rfl
  · rfl
  · rw [recvByte_eq]
    split <;> rfl
  · obtain ⟨k, hk, -, -⟩ | hquiet := recvIdle_cases s
    · rw [hk]; rfl
    · rw [hquiet]; rfl

/-- Settles O56: only the calls of the Arbiter configuration are pending, so item 8 holds after each of them. -/
theorem arbiterMovesKeepTheArbiterInvariant : Obligations.ArbiterMovesKeepTheArbiterInvariant := by
  rintro s s' ⟨hinv, hunaddressed⟩ hmoves h
  have hinv' : s'.inv := stepKeepsTheInvariant s s' hinv h
  obtain ⟨i, t, -, hop, hexec⟩ | ⟨pre, t, rest, hinbox, -, rfl⟩ | rfl := step_next_cases h
  · obtain ⟨e, rest, p, hinbox, rfl, hmove⟩ := nextOperation_cases hop
    rw [hinbox, List.forall_mem_cons] at hmoves
    obtain ⟨w, now, payload, stall, rfl, rfl, -⟩ | ⟨b, rfl, -, -⟩ := hmove
    · exact ⟨⟨hinv', exec_initial_unaddressed hexec hmoves.1 hunaddressed⟩, by rw [exec_inbox hexec]; exact hmoves.2⟩
    · cases hmoves.1
  · rw [hinbox, List.forall_mem_append, List.forall_mem_cons] at hmoves
    exact ⟨⟨hinv', fun _ => rfl⟩, hmoves.2.2⟩
  · exact ⟨⟨hinv', hunaddressed⟩, hmoves⟩

/-! Messages (10_state.md R38). -/

theorem present_eq_some {α : Type} {v : Bool} {x y : α} : present v x = some y ↔ v = true ∧ x = y := by
  cases v <;> simp [present]

theorem heldMessage_legal {p : ParserRegs} (h : p.inv) : (heldMessage p).legal := by
  obtain ⟨-, -, ⟨hvolt, htemp, hbtn⟩, -⟩ := h
  refine ⟨fun v hv => ?_, fun t ht => ?_, fun b hb => ?_⟩
  · obtain ⟨hpresent, rfl⟩ := present_eq_some.mp hv
    exact hvolt hpresent
  · obtain ⟨hpresent, rfl⟩ := present_eq_some.mp ht
    exact htemp hpresent
  · obtain ⟨hpresent, rfl⟩ := present_eq_some.mp hb
    exact hbtn hpresent

/-- Settles O59: a Message holds the registers that PARSE leaves, and these meet the invariant. -/
theorem returnedMessagesAreLegal : Obligations.ReturnedMessagesAreLegal := by
  rintro i s s' m ⟨-, hparser, -, -⟩ hnone h hm
  obtain hkeep | hclear | ⟨b, hemit⟩ := exec_msg_cases h
  · rw [hkeep, hnone] at hm
    cases hm
  · rw [hclear] at hm
    cases hm
  · obtain ⟨-, -, rfl⟩ := (emitTest_eq_some _ m).mp (hemit.symm.trans hm)
    exact heldMessage_legal (parseRegs_inv hparser)

/-! Power-on reset (70_reset_and_hazards.md section 1). -/

/-- A power-on reset at the head is taken, inside a hung SEND and outside. -/
theorem step_powerOn {s : State} {rest : List Event} {t : Nat} (h : s.inbox = .powerOn t :: rest) :
    step s = .next (powerOnReset s rest t) := by
  obtain hhung | hhung := Bool.eq_false_or_eq_true s.hung
  · exact step_of_hung_powerOn (pre := []) hhung (by simp) h
  · simp only [step_of_not_hung hhung, nextOperation, withoutOperation, h]

/-- Settles O8: `powerOnReset` writes the table's values. -/
theorem powerOnSetsEveryRegister : Obligations.PowerOnSetsEveryRegister := by
  intro s t rest hinbox
  refine ⟨powerOnReset s rest t, step_powerOn hinbox, ?_⟩
  have hsentinel : (31#5 : Turn).toInt = -1 := by decide
  simpa [ParserRegs.reset, ArbRegs.reset, hsentinel] using canSend_sentinel s.cfg

theorem powerOn_inv {cfg : Config} (hcfg : cfg.valid) (t : Nat) : (State.powerOn cfg t).inv :=
  ⟨hcfg, ParserRegs.reset_inv, ArbRegs.reset_inv cfg t, rfl⟩

theorem powerOn_arbiterInv {cfg : Config} (hcfg : cfg.valid) (t : Nat) : (State.powerOn cfg t).arbiterInv :=
  ⟨powerOn_inv hcfg t, fun _ => rfl⟩

/-- Settles O9: the configuration of the vectors is a legal one. -/
theorem powerOnMeetsTheInvariants : Obligations.PowerOnMeetsTheInvariants := by
  have hvectors : Config.vectors.valid := by decide
  exact ⟨fun cfg t hcfg => ⟨powerOn_inv hcfg t, powerOn_arbiterInv hcfg t⟩, powerOn_inv hvectors 0,
    powerOn_arbiterInv hvectors 0⟩

/-! The hang inside SEND (70_reset_and_hazards.md R267). -/

theorem isPowerOn_eq_false_iff (e : Event) : e.isPowerOn = false ↔ ∀ t, e ≠ .powerOn t := by
  cases e <;> simp [Event.isPowerOn]

theorem forall_isPowerOn_eq_false_iff (es : List Event) :
    (∀ e ∈ es, e.isPowerOn = false) ↔ ∀ (e : Event) (t : Nat), e ∈ es → e ≠ .powerOn t := by
  simp only [isPowerOn_eq_false_iff]
  exact ⟨fun h e t he => h e he t, fun h e he t => h e t he⟩

/-- What has been asked of the transport: the direction, `k` writes, and the request that never completes. -/
theorem stalledActions_eq (payload : List Byte) (k : Nat) :
    stalledActions payload k = [.setDir .tx] ++ ((frame payload).take k).map .write ++
      [((frame payload)[k]?.map .write).getD .flush] := by
  generalize hbytes : frame payload = bytes
  simp only [stalledActions, sendActions, hbytes, List.take_succ_cons, List.cons_append, List.nil_append,
    List.cons.injEq, true_and]
  by_cases hk : k < bytes.length
  · have hmin : min k bytes.length = k := by omega
    rw [hmin, List.take_append_of_le_length (by simpa using hk), List.take_add_one, ← List.map_take,
      List.getElem?_map, List.getElem?_eq_getElem hk]
    rfl
  · have hmin : min k bytes.length = (bytes.map TxAction.write).length := by
      rw [List.length_map]
      omega
    rw [hmin, List.take_length_add_append, List.getElem?_eq_none (by omega),
      List.take_of_length_le (l := bytes) (by omega)]
    rfl

/-- Settles O41: the requests of a stalled SEND, and the moves a hung block takes. -/
theorem stalledTransportHangsSend : Obligations.StalledTransportHangsSend := by
  refine ⟨fun s k hstall => ⟨s.ghost ++ sendGhost s.cfg s.arb.turn, ?_⟩, fun s hhung hne hno => ?_,
    fun s pre rest t hhung hpre hinbox => ?_⟩
  · rw [exec_send_stalled hstall, hangInSend_eq, stalledActions_eq]
    cases (frame s.port.payload)[k]? <;> rfl
  · have hblocked : blocked s = true := (blocked_iff s).mpr ⟨hhung, hne, (forall_isPowerOn_eq_false_iff _).mpr hno⟩
    simp [step, hblocked]
  · exact ⟨powerOnReset s rest t,
      step_of_hung_powerOn hhung ((forall_isPowerOn_eq_false_iff _).mpr hpre) hinbox, rfl, rfl, rfl, rfl, rfl⟩

/-! What stops (60_exceptions.md sections 1, 3 and 6). -/

/-- Only the reserved op codes give no next state. -/
theorem exec_answers {i : Instr} (h110 : i ≠ .reserved110) (h111 : i ≠ .reserved111) (s : State) :
    ∃ t, exec i s = .next t := by
  cases hexec : exec i s with
  | next t => exact ⟨t, rfl⟩
  | fault f => exact absurd hexec (exec_ne_fault i s f)
  | refused r =>
    obtain ⟨hi, -⟩ | ⟨hi, -⟩ := exec_refused hexec
    · exact absurd hi h110
    · exact absurd hi h111

theorem opField_of_reserved110 {w : CmdWord} (h : decodeCommand w = .reserved110) : opField w = 6#3 := by
  unfold decodeCommand at h
  split_ifs at h
  assumption

theorem opField_of_reserved111 {w : CmdWord} (h : decodeCommand w = .reserved111) : opField w = 7#3 := by
  obtain hw | hw | hw | hw | hw | hw | hw | hw := opField_cases w
  case inr.inr.inr.inr.inr.inr.inr => exact hw
  case inr.inr.inr.inr.inr.inl => cases hv : vField w <;> simp [decodeCommand, hw, hv] at h
  all_goals simp [decodeCommand, hw] at h

/-- A wire byte stands for a token or for PARSE, never for a reserved op code. -/
theorem wireInstr_not_reserved (b : Byte) : wireInstr b ≠ .reserved110 ∧ wireInstr b ≠ .reserved111 := by
  cases h : decodeWire b with
  | ok i =>
    rw [wireInstr_of_ok h]
    have htoken := tokenByte_of_decodeWire h
    constructor <;> rintro rfl <;> cases htoken
  | error e =>
    obtain ⟨x⟩ := e
    simp [wireInstr_of_error h]

/-- Inside a hung SEND no operation is taken. -/
theorem nextOperation_admitted_of_hung {s : State} (h : s.hung = true) : nextOperation (admitted s) = none := by
  have hinbox := admitted_inbox_of_hung h
  obtain ⟨hempty, -⟩ | ⟨pre, t, rest, -, -, hhead⟩ := dropWhile_notPowerOn s.inbox
  · simp only [nextOperation, hinbox, hempty]
  · simp only [nextOperation, hinbox, hhead]

/-- A refusal is that of a pending call whose word carries a reserved op code. -/
theorem step_refused_cases {s : State} {r : Refusal} (h : step s = .refused r) :
    s.hung = false ∧ ∃ w now payload stall rest, s.inbox = .call w now payload stall :: rest ∧
      (opField w = 6#3 ∨ opField w = 7#3) ∧ r = .reservedOp (opField w) := by
  have hhung : s.hung = false := by
    by_contra hhung
    simp only [step, nextOperation_admitted_of_hung (Bool.not_eq_false _ ▸ hhung)] at h
    split at h <;> cases h
  refine ⟨hhung, ?_⟩
  rw [step_of_not_hung hhung] at h
  split at h
  next i t hop =>
    obtain ⟨e, rest, p, hinbox, -, ⟨w, now, payload, stall, rfl, rfl, -⟩ | ⟨b, -, rfl, -⟩⟩ := nextOperation_cases hop
    · refine ⟨w, now, payload, stall, rest, hinbox, ?_⟩
      obtain ⟨hi, rfl⟩ | ⟨hi, rfl⟩ := exec_refused h
      · simp [opField_of_reserved110 hi]
      · simp [opField_of_reserved111 hi]
    · obtain ⟨h110, h111⟩ := wireInstr_not_reserved b
      obtain ⟨t', ht'⟩ := exec_answers h110 h111 t
      rw [ht'] at h
      cases h
  next => cases h

/-- Settles O54: the stops of `exec` are its refusals, and the one of the step is the hang. -/
theorem nothingElseStops : Obligations.NothingElseStops := by
  refine ⟨fun i s h110 h111 => exec_answers h110 h111 s, fun s => ⟨fun f h => ?_, fun r h => step_refused_cases h⟩⟩
  obtain ⟨hf, hhung, hne, hno⟩ := step_fault_cases h
  exact ⟨hf, hhung, hne, (forall_isPowerOn_eq_false_iff _).mp hno⟩

/-! The ghost history (60_exceptions.md R221). -/

theorem recvByte_eraseGhost (b : Byte) (s : State) (g : List GhostEvent) :
    (recvByte b { s with ghost := g }).eraseGhost = (recvByte b s).eraseGhost := by
  rw [recvByte_eq, recvByte_eq]
  cases emitTest (parseRegs s.cfg b s.parser).1 <;> rfl

theorem recvIdle_eraseGhost (s : State) (g : List GhostEvent) :
    (recvIdle { s with ghost := g }).eraseGhost = (recvIdle s).eraseGhost := by
  simp only [recvIdle]
  split <;> rfl

/-- An operation reads every field but the ghost history. -/
theorem exec_eraseGhost (i : Instr) (s : State) (g : List GhostEvent) :
    mapNext State.eraseGhost (exec i { s with ghost := g }) = mapNext State.eraseGhost (exec i s) := by
  cases i with
  | send =>
    simp only [exec, execSend]
    cases s.port.txStall <;> rfl
  | recvByte b => exact congrArg Host.Outcome.next (recvByte_eraseGhost b s g)
  | recvIdle => exact congrArg Host.Outcome.next (recvIdle_eraseGhost s g)
  | _ => rfl

/-- Settles O58: the move taken does not depend on the history, and the operation it stands for reads none. -/
theorem ghostHistoryIsNeverRead : Obligations.GhostHistoryIsNeverRead := by
  intro s g
  have hnext : nextOperation (admitted { s with ghost := g }) =
      (nextOperation (admitted s)).map fun x => (x.1, { x.2 with ghost := g }) := by
    show nextOperation { admitted s with ghost := g } = _
    unfold nextOperation
    cases (admitted s).inbox with
    | nil => rfl
    | cons e rest => cases e <;> rfl
  have hblocked : blocked { s with ghost := g } = blocked s := rfl
  simp only [step, hblocked, hnext]
  cases blocked s with
  | true => rfl
  | false =>
    cases nextOperation (admitted s) with
    | some x => exact exec_eraseGhost x.1 x.2 g
    | none =>
      show mapNext State.eraseGhost (.next (withoutOperation { admitted s with ghost := g })) = _
      unfold withoutOperation
      cases (admitted s).inbox with
      | nil => rfl
      | cons e rest => cases e <;> rfl

end Sys2Proof.Machine

/-! PROOFS about the turn and the clock: elapsed time, the slots an advance moves, and the gate CAN_SEND
(spec/42_arbiter.md sections 3 and 4, spec/70_reset_and_hazards.md section 3). -/

namespace Sys2Proof.Machine

/-! Elapsed time. -/

/-- The elapsed time depends on the clock values only modulo the clock's range. -/
theorem elapsed_of_modEq {w now last silence : Nat} (h : (now : Int) ≡ last + silence [ZMOD 2 ^ w]) :
    elapsed w now last = silence % 2 ^ w := by
  have hdiff : (now : Int) - last ≡ silence [ZMOD 2 ^ w] := by simpa using h.sub_right (last : Int)
  have hcast : ((elapsed w now last : Nat) : Int) = ((silence % 2 ^ w : Nat) : Int) := by
    rw [elapsed_eq_emod, hdiff]
    push_cast
    rfl
  exact_mod_cast hcast

/-- Settles O47: cutting either clock value to its width changes neither side modulo the clock's range. -/
theorem elapsedTimeWraps : Obligations.ElapsedTimeWraps := by
  intro w start silence
  have hcut (n : Nat) : ((n % 2 ^ w : Nat) : Int) ≡ n [ZMOD 2 ^ w] := by
    push_cast
    exact Int.mod_modEq _ _
  have hstart : ((start + silence : Nat) : Int) ≡ (start % 2 ^ w : Nat) + silence [ZMOD 2 ^ w] := by
    push_cast
    exact ((Int.mod_modEq _ _).add_right _).symm
  have hwrapped := elapsed_of_modEq ((hcut (start + silence)).trans hstart)
  exact ⟨elapsed_of_modEq hstart, hwrapped, fun hshort => hwrapped.trans (Nat.mod_eq_of_lt hshort)⟩

/-! The slots an advance moves. -/

/-- An elapsed time of `k` whole periods beyond the grace advances `k` slots. -/
theorem recvIdle_of_periods {s : State} {k : Nat} (hcycle : 1 ≤ s.cfg.cycleUs) (hk : 1 ≤ k)
    (hlow : k * s.cfg.cycleUs + grace s.cfg s.arb.idle ≤ elapsed s.cfg.timeWidth s.port.now s.arb.last)
    (hhigh : elapsed s.cfg.timeWidth s.port.now s.arb.last < (k + 1) * s.cfg.cycleUs + grace s.cfg s.arb.idle) :
    recvIdle s = (advance s.port.now k s).withMsg none := by
  have hone : s.cfg.cycleUs ≤ k * s.cfg.cycleUs := Nat.le_mul_of_pos_left _ hk
  have hcount : (elapsed s.cfg.timeWidth s.port.now s.arb.last - grace s.cfg s.arb.idle) / s.cfg.cycleUs = k :=
    Nat.div_eq_of_lt_le (by omega) (by omega)
  rw [recvIdle_advances hcycle (by omega), hcount]
  rfl

/-- The whole periods in the elapsed time beyond the grace. -/
theorem periods_bounds {e g c k : Nat} (hc : 1 ≤ c) (hg : g ≤ e) (hk : k = (e - g) / c) :
    k * c + g ≤ e ∧ e < (k + 1) * c + g := by
  have hlow : k * c ≤ e - g := hk ▸ Nat.div_mul_le_self (e - g) c
  have hhigh : e - g < (k + 1) * c := hk ▸ Nat.lt_mul_of_div_lt (Nat.lt_succ_self _) hc
  omega

/-- Settles O45: the interval is that of `recvIdle_of_periods`. -/
theorem longSilenceCatchesUp : Obligations.LongSilenceCatchesUp := by
  rintro s k ⟨hcycle, -⟩ hk hlow hhigh
  refine ⟨recvIdle s, exec_recvIdle s, ?_⟩
  rw [recvIdle_of_periods hcycle hk hlow hhigh, State.withMsg_arb, advance_turn_toInt]

/-- Settles O46: the grace takes the last of the `k` periods, and with it the advance where there is no other. -/
theorem exactMultipleLosesASlotToTheGrace : Obligations.ExactMultipleLosesASlotToTheGrace := by
  rintro s k ⟨hcycle, -⟩ hidle hgrace hgraceLe hk helapsed
  have hg : grace s.cfg s.arb.idle = s.cfg.byteTimeUs := by simp [grace, hidle]
  refine ⟨recvIdle s, exec_recvIdle s, fun hone => ?_, fun htwo => ?_⟩
  · exact recvIdle_quiet hcycle (by rw [hg, helapsed, hone]; omega)
  · obtain ⟨j, rfl⟩ : ∃ j, k = j + 1 := ⟨k - 1, by omega⟩
    have hlast : (j + 1) * s.cfg.cycleUs = j * s.cfg.cycleUs + s.cfg.cycleUs := Nat.succ_mul ..
    rw [recvIdle_of_periods (k := j) hcycle (by omega) (by omega) (by omega), State.withMsg_arb, advance_turn_toInt]
    refine ⟨?_, rfl⟩
    push_cast
    rw [add_sub_assoc, add_sub_cancel_right]

/-! The gate (42_arbiter.md R200, R201). -/

theorem canSend_slotTurn (cfg : Config) (a : Slot) : canSend cfg (slotTurn a) = true ↔ a = cfg.myAddr := by
  rw [canSend_iff, slotTurn_toInt, ← BitVec.toNat_inj]
  omega

/-- Settles O48: of the writes of the turn, each that ends at the device's address. -/
theorem onlyThreeOperationsOpenTheGate : Obligations.OnlyThreeOperationsOpenTheGate := by
  intro i s s' h hshut hopen
  rw [exec_cfg h] at hopen
  obtain hkeep | ⟨hi, -⟩ | ⟨b, m, hi, hm, hsnap⟩ | ⟨k, hi, rfl, -, -⟩ := exec_turn_cases h
  · rw [hkeep, hshut] at hopen
    cases hopen
  · exact .inl hi
  · rw [hsnap] at hopen
    exact .inr (.inl ⟨b, m, hi, hm, (canSend_slotTurn _ _).mp hopen⟩)
  · exact .inr (.inr ⟨hi, rfl, rfl, (canSend_iff _ _).mp hopen⟩)

/-- Settles O50: a SEND claims the turn, and an advance by a multiple of 16 slots returns to it. -/
theorem onlyTwoOperationsShutTheGate : Obligations.OnlyTwoOperationsShutTheGate := by
  rintro i s s' ⟨hcycle, -⟩ h hopen hshut
  rw [exec_cfg h, ← Bool.not_eq_true] at hshut
  obtain hkeep | ⟨-, hclaim⟩ | ⟨b, m, hi, hm, hsnap⟩ | ⟨k, hi, rfl, hreach, hcount⟩ := exec_turn_cases h
  · exact absurd (hkeep ▸ hopen) hshut
  · exact absurd (hclaim ▸ (canSend_slotTurn s.cfg _).mpr rfl) hshut
  · rw [hsnap, canSend_slotTurn] at hshut
    exact .inl ⟨b, m, hi, hm, hshut⟩
  · refine .inr ⟨hi, k, fun hdvd => hshut ?_, periods_bounds (g := grace s.cfg s.arb.idle) hcycle (by omega) hcount⟩
    rw [canSend_iff] at hopen ⊢
    rw [State.withMsg_arb, advance_turn_toInt]
    omega

/-! The silence from power-on (42_arbiter.md R200, the run). -/

/-- `k` slots of the silence since power-on at `t` have been counted, and the device's own slot is still to come. -/
structure SilentSlots (t k : Nat) (s : State) : Prop where
  running : s.hung = false
  turn : s.arb.turn.toInt = (k : Int) - 1
  early : k ≤ s.cfg.myAddr.toNat
  counted : t + s.cfg.byteTimeUs + k * s.cfg.cycleUs ≤ s.arb.last + grace s.cfg s.arb.idle

theorem SilentSlots.canSend_eq_false {t k : Nat} {s : State} (h : SilentSlots t k s) :
    canSend s.cfg s.arb.turn = false := by
  have hearly := h.early
  rw [← Bool.not_eq_true, canSend_iff, h.turn]
  omega

theorem SilentSlots.powerOn (cfg : Config) (t : Nat) (ht : t < 2 ^ cfg.timeWidth) :
    SilentSlots t 0 (State.powerOn cfg t) where
  running := rfl
  turn := by
    show (31#5).toInt = _
    decide
  early := Nat.zero_le _
  counted := by simp [State.powerOn, ArbRegs.reset, grace, Nat.mod_eq_of_lt ht]

/-- A RECV that finds no byte counts the slots elapsed since the last event, none of them the device's own. -/
theorem SilentSlots.after_recvIdle {t k : Nat} {s : State} (h : SilentSlots t k s) (hcycle : 1 ≤ s.cfg.cycleUs)
    (hlast : s.arb.last ≤ s.port.now) (hwidth : s.port.now < 2 ^ s.cfg.timeWidth)
    (hnow : s.port.now < t + s.cfg.byteTimeUs + (s.cfg.myAddr.toNat + 1) * s.cfg.cycleUs) :
    (∃ k', SilentSlots t k' (recvIdle s)) ∧ (recvIdle s).arb.last ≤ s.port.now := by
  obtain ⟨j, hj, hreach, hcount⟩ | hquiet := recvIdle_cases s
  · have hcounted := h.counted
    obtain ⟨hlow, -⟩ := periods_bounds hcycle (by omega) hcount
    have hpositive : 1 ≤ j := hcount ▸ Nat.div_pos (by omega) hcycle
    rw [elapsed_of_le hlast (by omega)] at hlow
    have htotal : t + s.cfg.byteTimeUs + (k + j) * s.cfg.cycleUs ≤ s.port.now := by
      rw [Nat.add_mul]
      omega
    have hearly : k + j < s.cfg.myAddr.toNat + 1 := Nat.lt_of_mul_lt_mul_right (a := s.cfg.cycleUs) (by omega)
    have hnow' : (advance s.port.now j s).arb.last = s.port.now := Nat.mod_eq_of_lt hwidth
    rw [hj]
    refine ⟨⟨k + j, ?_⟩, hnow'.le⟩
    constructor
    · exact h.running
    · rw [State.withMsg_arb, advance_turn_toInt, h.turn]
      omega
    · exact Nat.le_of_lt_succ hearly
    · exact htotal.trans (hnow'.ge.trans (Nat.le_add_right _ _))
  · rw [hquiet]
    exact ⟨⟨k, h.running, h.turn, h.early, h.counted⟩, hlast⟩

/-- The call of the control loop that finds no byte: RECV, command word op 101 with `v = 0`, at time `now`. -/
def idleCall (now : Nat) : Event := .call 0x0005#16 now [] none

theorem step_idleCall {s : State} {now : Nat} {rest : List Event} (hhung : s.hung = false)
    (hinbox : s.inbox = idleCall now :: rest) : step s = .next (recvIdle (latchCall s rest ⟨now, [], none⟩)) := by
  have hdecode : decodeCommand 0x0005#16 = .recvIdle := by decide
  rw [step_call hhung hinbox, hdecode, exec_recvIdle]

theorem run_of_step {s t : State} {n : Nat} (h : step s = .next t) :
    Host.Core.run Sys2Proof.core (n + 1) s = Host.Core.run Sys2Proof.core n t := by
  have hstep : Sys2Proof.core.step s = .next t := h
  simp only [Host.Core.run, hstep]

/-- A run of such calls, one after the other, keeps counting slots before the device's own. -/
theorem SilentSlots.run_idleCalls {t k : Nat} {s : State} {nows : List Nat} (h : SilentSlots t k s)
    (hcycle : 1 ≤ s.cfg.cycleUs) (hinbox : s.inbox = nows.map idleCall)
    (horder : List.Pairwise (fun a b : Nat => a ≤ b) (s.arb.last :: nows))
    (hnows : ∀ now ∈ nows, now < 2 ^ s.cfg.timeWidth ∧
      now < t + s.cfg.byteTimeUs + (s.cfg.myAddr.toNat + 1) * s.cfg.cycleUs) :
    ∃ s', Host.Core.run Sys2Proof.core nows.length s = .next s' ∧ canSend s'.cfg s'.arb.turn = false := by
  induction nows generalizing s k with
  | nil => exact ⟨s, rfl, h.canSend_eq_false⟩
  | cons now nows ih =>
    rw [List.pairwise_cons, List.pairwise_cons] at horder
    rw [List.forall_mem_cons] at hnows
    obtain ⟨hfirst, hnext, horder⟩ := horder
    obtain ⟨⟨hwidth, hnow⟩, hnows⟩ := hnows
    have hlatched : SilentSlots t k (latchCall s (nows.map idleCall) ⟨now, [], none⟩) :=
      ⟨h.running, h.turn, h.early, h.counted⟩
    obtain ⟨⟨k', h'⟩, hlast'⟩ := hlatched.after_recvIdle hcycle (hfirst now (by simp)) hwidth hnow
    have hstep := step_idleCall h.running hinbox
    set s₁ := recvIdle (latchCall s (nows.map idleCall) ⟨now, [], none⟩)
    have hcfg : s₁.cfg = s.cfg := recvIdle_cfg _
    have hinbox' : s₁.inbox = nows.map idleCall := exec_inbox (exec_recvIdle _)
    have horder' : List.Pairwise (fun a b : Nat => a ≤ b) (s₁.arb.last :: nows) :=
      List.pairwise_cons.mpr ⟨fun x hx => hlast'.trans (hnext x hx), horder⟩
    obtain ⟨s', hrun, hshut⟩ := ih h' (hcfg ▸ hcycle) hinbox' horder' (hcfg ▸ hnows)
    exact ⟨s', (run_of_step hstep).trans hrun, hshut⟩

/-- Settles O49: the run starts with no slot counted. -/
theorem gateStaysShutDuringEarlySilence : Obligations.GateStaysShutDuringEarlySilence := by
  rintro cfg t nows ⟨hcycle, -⟩ horder hnows
  rw [List.forall_mem_cons] at hnows
  obtain ⟨⟨hwidth, -⟩, hnows⟩ := hnows
  obtain ⟨hrunning, hturn, hearly, hcounted⟩ := SilentSlots.powerOn cfg t hwidth
  have hlast : (State.powerOn cfg t).arb.last = t := Nat.mod_eq_of_lt hwidth
  exact SilentSlots.run_idleCalls (s := { State.powerOn cfg t with inbox := nows.map idleCall })
    ⟨hrunning, hturn, hearly, hcounted⟩ hcycle rfl (hlast.symm ▸ horder) hnows

/-! The ghost record of the Arbiter's events. -/

theorem sendGhost_eq (cfg : Config) (turn : Turn) :
    sendGhost cfg turn = if turn.toInt = (cfg.myAddr.toNat : Int) then [] else [.outOfTurn] := by
  simp only [sendGhost, canSend_iff]

/-- SEND asks the transport for something and records what R240 says, whether or not the transport completes. -/
theorem exec_send_records (s : State) :
    ∃ t, exec .send s = .next t ∧ t.tx ≠ s.tx ∧ t.ghost = s.ghost ++ sendGhost s.cfg s.arb.turn := by
  cases hstall : s.port.txStall with
  | none => exact ⟨sendFrame s, exec_send hstall, by simp [sendFrame_eq, sendActions], rfl⟩
  | some k => exact ⟨hangInSend k s, exec_send_stalled hstall, by simp [hangInSend_eq, stalledActions_eq], rfl⟩

/-- Settles O44: the records of SEND and of the advance. -/
theorem arbiterEventsAreRecorded : Obligations.ArbiterEventsAreRecorded := by
  refine fun s => ⟨?_, fun hvalid helapsed => ?_⟩
  · rw [← sendGhost_eq]
    exact exec_send_records s
  · exact ⟨recvIdle s, exec_recvIdle s, by rw [recvIdle_advances hvalid.1 helapsed]⟩

end Sys2Proof.Machine

/-! PROOFS about PARSE in every state: the Voltage field, the transition table (spec/40_parser.md section 3), the wire
tokens, PRESET and the exits from Invalid. -/

namespace Sys2Proof.Machine

/-! Voltage. -/

/-- Voltage (R113 to R116): a digit, a terminator, or the violation of the byte's class. -/
theorem stepVoltage_eq (b : Byte) (p : ParserRegs) :
    stepVoltage b p =
      if isDec b = true ∧ p.cnt ≠ 4#4 then ruleOk { p with acc := decShift p.acc b, cnt := bumpCnt p.cnt }
      else if (b = sp ∨ b = bar) ∧ p.cnt ≠ 0#4 then
        ruleOk (gotoState (if b = sp then .idle else .checksum) (accReset (commitVolt p)))
      else gotoInvalid (if isDec b = true then .x3 else if b = sp ∨ b = bar then .x4 else .x5) p := by
  by_cases hdec : isDec b = true
  · have hterm : ¬ (b = sp ∨ b = bar) := by rintro (rfl | rfl) <;> simp [isDec_iff] at hdec
    obtain ⟨hcnt, h⟩ | ⟨hcnt, h⟩ := decDigit_cases b p <;> simp [stepVoltage, hdec, h, hcnt, hterm]
  · by_cases hterm : b = sp ∨ b = bar
    · obtain ⟨hcnt, h⟩ | ⟨hcnt, h⟩ := decTerminator_cases commitVolt b p <;> simp [stepVoltage, hdec, h, hcnt, hterm]
    · simp [stepVoltage, hdec, hterm]

/-- Settles O13: a digit, a commit or a violation, as the rule's equation orders them. -/
theorem voltageCollectsDigits : Obligations.VoltageCollectsDigits := by
  intro s b hs hcnt
  have hrule : parseRegs s.cfg b s.parser = stepVoltage b { s.parser with crc := crcUpdate s.parser.crc b } :=
    parseRegs_of_fold hs rfl
  rw [stepVoltage_eq] at hrule
  simp only [← isDec_iff, ← and_assoc]
  split at hrule
  case isTrue hdigit =>
    rw [exec_parse_silent_ruleOk hrule (by simp [hs]), if_pos hdigit, bumpCnt_of_le_four hcnt]
    rfl
  case isFalse hdigit =>
    rw [if_neg hdigit]
    split at hrule
    case isTrue hterm =>
      have hstate : (if b = sp then PState.idle else .checksum) ≠ .initial := by split <;> simp
      rw [exec_parse_silent_ruleOk hrule hstate, if_pos hterm]
      rfl
    case isFalse hterm => rw [exec_parse_gotoInvalid hrule, if_neg hterm]

/-! The transition table: the classes of the rules, by the table's columns. -/

theorem eq_colon_iff (b : Byte) : b = colon ↔ column b = .colon := by revert b; decide +kernel
theorem eq_sp_iff (b : Byte) : b = sp ↔ column b = .sp := by revert b; decide +kernel
theorem eq_bar_iff (b : Byte) : b = bar ↔ column b = .bar := by revert b; decide +kernel
theorem eq_nl_iff (b : Byte) : b = nl ↔ column b = .nl := by revert b; decide +kernel
theorem eq_cr_iff (b : Byte) : b = cr ↔ column b = .cr := by revert b; decide +kernel
theorem eq_minus_iff (b : Byte) : b = minus ↔ column b = .minus := by revert b; decide +kernel
theorem eq_letA_iff (b : Byte) : b = letA ↔ column b = .a := by revert b; decide +kernel
theorem eq_letB_iff (b : Byte) : b = letB ↔ column b = .b := by revert b; decide +kernel
theorem eq_letT_iff (b : Byte) : b = letT ↔ column b = .t := by revert b; decide +kernel
theorem eq_letV_iff (b : Byte) : b = letV ↔ column b = .v := by revert b; decide +kernel

theorem isUpOther_iff_column (b : Byte) : isUpOther b = true ↔ column b = .upOther := by revert b; decide +kernel

theorem isBtn_iff_column (b : Byte) : isBtn b = true ↔ column b = .low := by revert b; decide +kernel

theorem isDec_iff_column (b : Byte) : isDec b = true ↔ column b = .low ∨ column b = .high := by revert b; decide +kernel

theorem isHexLc_iff_column (b : Byte) :
    isHexLc b = true ↔ column b = .low ∨ column b = .high ∨ column b = .hexLetter := by revert b; decide +kernel

/-! The actions of the table's cells. -/

theorem cellAction_digit (cfg : Config) (b : Byte) (p : ParserRegs) : cellAction cfg b p .digit = decDigit b p := by
  simp only [cellAction, decDigit, bumpCnt_eq]
  rfl

/-- The negated value of R119, in the 15 bits of the register. -/
theorem ofInt_signedAcc (p : ParserRegs) :
    BitVec.ofInt 15 (signedAcc p) = if p.neg then -(BitVec.ofNat 15 p.acc.toNat) else BitVec.ofNat 15 p.acc.toNat := by
  unfold signedAcc
  split
  · rw [BitVec.ofInt_neg, BitVec.ofInt_natCast]
  · rw [BitVec.ofInt_natCast]

theorem cellAction_commit_voltage (cfg : Config) (b : Byte) {p : ParserRegs} (h : p.state = .voltage) :
    cellAction cfg b p (.commit (if b = sp then .idle else .checksum)) = decTerminator commitVolt b p := by
  simp only [cellAction, h, if_true]
  rfl

theorem cellAction_commit_temperature (cfg : Config) (b : Byte) {p : ParserRegs} (h : p.state = .temperature) :
    cellAction cfg b p (.commit (if b = sp then .idle else .checksum)) = decTerminator commitTemp b p := by
  simp only [cellAction, h, decTerminator, commitTemp, ofInt_signedAcc]
  rfl

theorem cellAction_negate (cfg : Config) (b : Byte) (p : ParserRegs) : cellAction cfg b p .negate = tempMinus p := by
  obtain ⟨hcnt, hneg, h⟩ | ⟨hnot, h⟩ := tempMinus_cases p
  · rw [h, cellAction, if_pos ⟨hcnt, hneg⟩]
    rfl
  · rw [h, cellAction, if_neg hnot]
    rfl

theorem cellAction_hex (cfg : Config) {b : Byte} (p : ParserRegs) (h : isHexLc b = true) :
    cellAction cfg b p .hex = ruleOk (hexDigit b p) := by
  simp only [cellAction, hexDigit, hexShift_eq_or p.acc h, bumpCnt_eq]
  rfl

theorem cellAction_close (cfg : Config) (b : Byte) (p : ParserRegs) :
    cellAction cfg b p .close = checksumEnd cfg.policy p := by
  simp only [cellAction, checksumEnd, checksumOk_iff]
  rfl

/-! Each row of the table is the rule of its state. -/

theorem stepIdle_eq_cellAction (cfg : Config) (b : Byte) (p : ParserRegs) :
    stepIdle b p = cellAction cfg b p (idleCell (column b)) := by
  simp only [stepIdle, eq_letA_iff, eq_letV_iff, eq_letT_iff, eq_letB_iff, eq_sp_iff, eq_bar_iff, isUpOther_iff_column]
  cases column b <;> rfl

theorem stepVoltage_eq_cellAction (cfg : Config) (b : Byte) {p : ParserRegs} (h : p.state = .voltage) :
    stepVoltage b p = cellAction cfg b p (tableCell .voltage (column b)) := by
  simp only [stepVoltage, ← cellAction_digit cfg, ← cellAction_commit_voltage cfg b h, isDec_iff_column, eq_sp_iff,
    eq_bar_iff]
  cases column b <;> rfl

theorem stepTemperature_eq_cellAction (cfg : Config) (b : Byte) {p : ParserRegs} (h : p.state = .temperature) :
    stepTemperature b p = cellAction cfg b p (tableCell .temperature (column b)) := by
  simp only [stepTemperature, ← cellAction_digit cfg, ← cellAction_commit_temperature cfg b h,
    ← cellAction_negate cfg b, isDec_iff_column, eq_sp_iff, eq_bar_iff, eq_minus_iff]
  cases column b <;> rfl

theorem stepChecksum_eq_cellAction (cfg : Config) (b : Byte) (p : ParserRegs) :
    stepChecksum cfg.policy b p = cellAction cfg b p (checksumCell (column b)) := by
  by_cases hhex : isHexLc b = true
  · rw [stepChecksum, if_pos hhex, ← cellAction_hex cfg p hhex]
    obtain hc | hc | hc := (isHexLc_iff_column b).mp hhex <;> rw [hc] <;> rfl
  · simp only [stepChecksum, hhex, ← cellAction_close cfg b, eq_sp_iff, eq_cr_iff, eq_nl_iff]
    rw [isHexLc_iff_column] at hhex
    revert hhex
    cases column b <;> simp [checksumCell, cellAction, violated, ruleOk, gotoInvalid]

/-- 40_parser.md R130. -/
theorem stateRule_eq_cellAction (cfg : Config) (b : Byte) (p : ParserRegs) :
    stateRule cfg p.state b p = cellAction cfg b p (tableCell p.state (column b)) := by
  cases h : p.state with
  | initial =>
    simp only [stateRule, stepInitial, tableCell, eq_colon_iff]
    split <;> rfl
  | idle => exact stepIdle_eq_cellAction cfg b p
  | skipping =>
    simp only [stateRule, stepSkipping, tableCell, eq_sp_iff, eq_bar_iff]
    split_ifs <;> rfl
  | invalid => rfl
  | address =>
    simp only [stateRule, stepAddress, tableCell, isHexLc_iff_column]
    split <;> rfl
  | voltage => exact stepVoltage_eq_cellAction cfg b h
  | temperature => exact stepTemperature_eq_cellAction cfg b h
  | button =>
    simp only [stateRule, stepButton, tableCell, isBtn_iff_column]
    split <;> rfl
  | checksum => exact stepChecksum_eq_cellAction cfg b p

/-- Settles O20: after the fold the rule of the state is the action of the table's cell. -/
theorem parseFollowsTheTransitionTable : Obligations.ParseFollowsTheTransitionTable := by
  intro s b
  have hrule : parseRegs s.cfg b s.parser =
      cellAction s.cfg b (foldByte s.cfg b s.parser) (tableCell s.parser.state (column b)) :=
    stateRule_eq_cellAction s.cfg b (foldByte s.cfg b s.parser)
  refine ⟨parseByte b s, exec_parse b s, ?_⟩
  rw [parseByte_eq, hrule, ← foldByte]
  obtain ⟨p, _ | x⟩ := cellAction s.cfg b (foldByte s.cfg b s.parser) (tableCell s.parser.state (column b)) <;> rfl

/-! The exits from Invalid, PRESET and re-emission. -/

/-- A byte read in Invalid leaves the Parser there. -/
theorem parseByte_parser_of_invalid {b : Byte} {s : State} (h : s.parser.state = .invalid) :
    (parseByte b s).parser = s.parser := by
  rw [parseByte_eq, parseRegs_invalid h]
  rfl

theorem recvByte_parser_of_invalid {b : Byte} {s : State} (h : s.parser.state = .invalid) :
    (recvByte b s).parser = s.parser := by
  have hsilent : (parseByte b s).msg = none := by
    rw [parseByte_eq, parseRegs_invalid h]
    exact emitTest_of_ne_initial (by simp [ruleOk, h])
  rw [recvByte_of_silent hsilent]
  exact parseByte_parser_of_invalid h

/-- Settles O26: of the operations that write the Parser, the two that PRESET it. -/
theorem onlyPresetLeavesInvalid : Obligations.OnlyPresetLeavesInvalid := by
  intro i s s' h hs hs'
  obtain ⟨-, rfl⟩ | ⟨b, -, rfl⟩ | ⟨hi, rfl⟩ | ⟨-, rfl⟩ | ⟨-, -, rfl⟩ | ⟨k, -, -, rfl⟩ | ⟨b, -, rfl⟩ | ⟨hi, rfl⟩ :=
    exec_next_cases h
  · exact absurd hs hs'
  · rw [parseByte_parser_of_invalid hs] at hs'
    exact absurd hs hs'
  · exact ⟨.inl hi, rfl⟩
  · exact absurd hs hs'
  · exact absurd hs hs'
  · exact absurd hs hs'
  · rw [recvByte_parser_of_invalid hs] at hs'
    exact absurd hs hs'
  · obtain ⟨k, hk, hreach, -⟩ | hquiet := recvIdle_cases s
    · rw [hk]
      exact ⟨.inr ⟨hi, rfl, by rw [Nat.add_comm]; exact hreach⟩, rfl⟩
    · rw [hquiet] at hs'
      exact absurd hs hs'

theorem exec_preset (s : State) : exec .preset s = .next (s.withParser ParserRegs.reset) := rfl

/-- Settles O23: the values PRESET writes are those of the reset table. -/
theorem presetClearsTheParser : Obligations.PresetClearsTheParser := fun s => exec_preset s

/-- Settles O24: PRESET writes the same registers from every state. -/
theorem presetIsIdempotentAndEqualsPowerOn : Obligations.PresetIsIdempotentAndEqualsPowerOn := fun s _ =>
  ⟨s.withParser ParserRegs.reset, exec_preset s, exec_preset (s.withParser ParserRegs.reset), rfl⟩

/-- Before the frame start, with an address recorded, a byte emits what the registers hold. -/
theorem exec_parse_reemits {s : State} {b : Byte} (hs : s.parser.state = .initial) (haddr : s.parser.addrV = true)
    (hb : b ≠ colon) : exec (.parse b) s = .next { s with msg := some (heldMessage s.parser) } := by
  rw [exec_parse_ruleOk (parseRegs_initial_other hs hb), emitTest_initial hs, if_pos haddr]

/-- Settles O27: the registers are unchanged, so the next byte finds the same Message. -/
theorem reEmissionWithoutPreset : Obligations.ReEmissionWithoutPreset := fun s _ hs haddr hb =>
  ⟨heldMessage s.parser, rfl, exec_parse_reemits hs haddr hb, fun _ hb' => exec_parse_reemits hs haddr hb'⟩

/-! Wire tokens. -/

/-- Settles O28: each meaning is PARSE of the token's byte. -/
theorem tokensAreParserSteps : Obligations.TokensAreParserSteps :=
  fun _ => ⟨rfl, rfl, rfl, rfl, rfl, fun _ => rfl, rfl, rfl, rfl, rfl⟩

/-- In Idle: PARSE of a byte for which the rule gives no violation. -/
theorem exec_parse_idle {s : State} {b : Byte} {p : ParserRegs} (hs : s.parser.state = .idle)
    (hrule : stepIdle b { s.parser with crc := crcUpdate s.parser.crc b } = ruleOk p) (hp : p.state ≠ .initial) :
    exec (.parse b) s = .next { s with parser := p, msg := none } :=
  exec_parse_silent_ruleOk ((parseRegs_of_fold hs rfl).trans hrule) hp

theorem stepIdle_upOther {b : Byte} (h : isUpOther b = true) (p : ParserRegs) :
    stepIdle b p = ruleOk (gotoState .skipping p) := by
  simp only [stepIdle, eq_letA_iff, eq_letV_iff, eq_letT_iff, eq_letB_iff, eq_sp_iff, eq_bar_iff, isUpOther_iff_column,
    (isUpOther_iff_column b).mp h]
  rfl

/-- In Checksum: PARSE of a carriage return. -/
theorem exec_parse_checksum_cr {s : State} (hs : s.parser.state = .checksum) :
    exec (.parse cr) s = .next { s with msg := none } :=
  exec_parse_silent_ruleOk ((parseRegs_checksum hs).trans rfl) (by simp [hs])

/-- Settles O29: each token is PARSE of its byte, and the rule of the state names what the byte does. -/
theorem tokensCompleteWhereTheTableNamesThem : Obligations.TokensCompleteWhereTheTableNamesThem := by
  refine fun s => ⟨fun hs => ?_, fun hs => ?_, fun hs => ?_⟩
  · exact exec_parse_silent_ruleOk (parseRegs_initial_colon hs) (by simp)
  · exact ⟨exec_parse_idle (b := letA) hs rfl (by simp), exec_parse_idle (b := letV) hs rfl (by simp),
      exec_parse_idle (b := letT) hs rfl (by simp), exec_parse_idle (b := letB) hs rfl (by simp),
      fun x hx => exec_parse_idle (b := x) hs (stepIdle_upOther hx _) (by simp),
      exec_parse_idle (b := sp) hs rfl (by simp [hs]), exec_parse_idle (b := bar) hs rfl (by simp)⟩
  · refine ⟨exec_parse_checksum_cr hs, fun hcnt haddr hpolicy => ?_, fun hcnt haddr hacc =>
      ⟨heldMessage s.parser, rfl, ?_⟩⟩
    · exact (newlineClosesTheFrame s hs).trans (by simp [hcnt, haddr, hpolicy])
    · exact (newlineClosesTheFrame s hs).trans (by simp [hcnt, haddr, hacc, heldMessage, present])

end Sys2Proof.Machine

/-! PROOFS about whole byte sequences read forwards: junk, the fields of a frame, its checksum and its end
(spec/40_parser.md sections 3 and 4, spec/41_crc.md R163). -/

namespace Sys2Proof.Machine

/-! Runs of PARSE that return no Message. -/

/-- PARSE over `bs` takes the registers `p` to `q` and returns no Message on the way. -/
structure SilentRun (cfg : Config) (p : ParserRegs) (bs : List Byte) (q : ParserRegs) : Prop where
  regs : parseAll cfg p bs = q
  silent : messages cfg p bs = List.replicate bs.length none

/-- Such a run inside a frame, where every byte is folded into the running CRC. -/
structure FoldedRun (cfg : Config) (p : ParserRegs) (bs : List Byte) (q : ParserRegs) : Prop
    extends SilentRun cfg p bs q where
  folded : q.crc = crcFoldBytes p.crc bs

section

variable {cfg : Config} {p q r : ParserRegs} {u v bs : List Byte} {b : Byte}

theorem SilentRun.nil : SilentRun cfg p [] p := ⟨rfl, rfl⟩

theorem SilentRun.trans (hu : SilentRun cfg p u q) (hv : SilentRun cfg q v r) : SilentRun cfg p (u ++ v) r where
  regs := by rw [parseAll_append, hu.regs, hv.regs]
  silent := by rw [messages_append, hu.regs, hu.silent, hv.silent, List.replicate_append_replicate, List.length_append]

/-- One byte that does not lead to Initial. -/
theorem SilentRun.byte (hrule : parseRegs cfg b p = ruleOk q) (hq : q.state ≠ .initial) : SilentRun cfg p [b] q where
  regs := by simp only [parseAll, hrule, ruleOk]
  silent := by simp [messages, hrule, ruleOk, emitTest_of_ne_initial hq]

theorem FoldedRun.nil : FoldedRun cfg p [] p := ⟨.nil, rfl⟩

theorem FoldedRun.trans (hu : FoldedRun cfg p u q) (hv : FoldedRun cfg q v r) : FoldedRun cfg p (u ++ v) r where
  toSilentRun := hu.toSilentRun.trans hv.toSilentRun
  folded := by rw [crcFoldBytes_append, ← hu.folded, hv.folded]

/-- One byte inside a frame, by the rule of the state `x` it is read in. -/
theorem FoldedRun.byte {x : PState} (hs : p.state = x) (hfold : crcFold cfg x b p.crc = crcUpdate p.crc b)
    (hrule : stateRule cfg x b { p with crc := crcUpdate p.crc b } = ruleOk q) (hq : q.state ≠ .initial) :
    FoldedRun cfg p [b] q where
  toSilentRun := .byte ((parseRegs_of_fold hs hfold).trans hrule) hq
  folded := by simpa [hrule, crcFoldBytes] using stateRule_crc cfg x b { p with crc := crcUpdate p.crc b }

/-! Outside a frame. -/

/-- Before the frame-start byte the Parser does not move. -/
theorem junk_run (hs : p.state = .initial) (haddr : p.addrV = false) (hjunk : colon ∉ bs) : SilentRun cfg p bs p := by
  induction bs with
  | nil => exact .nil
  | cons b bs ih =>
    obtain ⟨hb, hbs⟩ := not_or.mp (mt List.mem_cons.mpr hjunk)
    have hrule : parseRegs cfg b p = ruleOk p := parseRegs_initial_other hs (Ne.symm hb)
    have hbyte : SilentRun cfg p [b] p :=
      ⟨by simp [parseAll, hrule, ruleOk], by simp [messages, hrule, ruleOk, emitTest, haddr]⟩
    exact hbyte.trans (ih hbs)

/-- The registers after the frame-start byte, read from the state PRESET leaves. -/
def frameStartRegs : ParserRegs := { ParserRegs.reset with state := .idle, crc := crcUpdate 0#32 colon }

theorem frameStart_run : SilentRun cfg ParserRegs.reset [colon] frameStartRegs :=
  .byte ((parseRegs_initial_colon rfl).trans (by cases cfg.crcRestart <;> rfl)) (by simp [frameStartRegs])

/-! Decimal digits. -/

theorem stateRule_decimal_digit (hs : p.state = .voltage ∨ p.state = .temperature) (hb : isDec b = true)
    (hcnt : p.cnt ≠ 4#4) :
    stateRule cfg p.state b p = ruleOk { p with acc := decShift p.acc b, cnt := bumpCnt p.cnt } := by
  have hminus : b ≠ minus := by rintro rfl; cases hb
  obtain hs | hs := hs <;> simp [hs, stateRule, stepVoltage, stepTemperature, hb, hminus, decDigit, hcnt]

theorem crcFold_decimal (hs : p.state = .voltage ∨ p.state = .temperature) (c : Word32) :
    crcFold cfg p.state b c = crcUpdate c b := by
  obtain hs | hs := hs <;> rw [hs] <;> rfl

/-- Up to four digits shift in. -/
theorem digits_run (hs : p.state = .voltage ∨ p.state = .temperature) (hlen : p.cnt.toNat + bs.length ≤ 4)
    (hdec : ∀ d ∈ bs, isDec d = true) :
    FoldedRun cfg p bs { p with
      acc := bs.foldl decShift p.acc
      cnt := BitVec.ofNat 4 (p.cnt.toNat + bs.length)
      crc := crcFoldBytes p.crc bs } := by
  induction bs generalizing p with
  | nil =>
    simp only [List.foldl_nil, List.length_nil, Nat.add_zero, BitVec.ofNat_toNat, BitVec.setWidth_eq, crcFoldBytes]
    exact .nil
  | cons b bs ih =>
    rw [List.length_cons] at hlen
    obtain ⟨hb, hbs⟩ := List.forall_mem_cons.mp hdec
    have hcnt : p.cnt ≠ 4#4 := by bv_omega
    have hbump : (bumpCnt p.cnt).toNat = p.cnt.toNat + 1 := by rw [bumpCnt_toNat]; omega
    have hinitial : p.state ≠ .initial := by obtain hs | hs := hs <;> simp [hs]
    have hbyte : FoldedRun cfg p [b] { p with
        acc := decShift p.acc b, cnt := bumpCnt p.cnt, crc := crcUpdate p.crc b } :=
      .byte rfl (crcFold_decimal hs _) (stateRule_decimal_digit (p := { p with crc := crcUpdate p.crc b }) hs hb hcnt)
        hinitial
    have hrest := hbyte.trans (ih hs (by simp only [hbump]; omega) hbs)
    rwa [hbump, Nat.add_assoc, Nat.add_comm 1] at hrest

/-! Whole fields. -/

/-- Between fields, or at the bar with the accumulator clear: the state, the Message held and the address recorded. -/
structure FieldsHeld (q : ParserRegs) (x : PState) (m : Message) (a : Bool) : Prop where
  state : q.state = x
  cleared : x = .checksum → q.acc = 0#32 ∧ q.cnt = 0#4
  held : heldMessage q = m
  addrV : q.addrV = a

/-- The state after the terminator of a field: a space or the bar. -/
def afterTerminator (t : Byte) : PState := if t = sp then .idle else .checksum

theorem afterTerminator_ne_initial (t : Byte) : afterTerminator t ≠ .initial := by
  unfold afterTerminator
  split <;> simp

theorem address_run (hs : p.state = .idle) (hb : isHexLc b = true) :
    ∃ q, FoldedRun cfg p [letA, b] q ∧
      FieldsHeld q .idle { heldMessage p with address := BitVec.ofNat 4 (hexval b) } true := by
  have hletter : FoldedRun cfg p [letA] { p with state := .address, crc := crcUpdate p.crc letA } :=
    .byte hs rfl rfl (by simp)
  exact ⟨_, hletter.trans (.byte rfl rfl (if_pos hb) (by simp)), rfl, by simp, rfl, rfl⟩

theorem button_run (hs : p.state = .idle) (hb : isBtn b = true) :
    ∃ q, FoldedRun cfg p [letB, b] q ∧
      FieldsHeld q .idle { heldMessage p with button := some (BitVec.ofNat 3 (decval b)) } p.addrV := by
  have hletter : FoldedRun cfg p [letB] { p with
      state := .button, acc := 0#32, neg := false, cnt := 0#4, crc := crcUpdate p.crc letB } :=
    .byte hs rfl rfl (by simp)
  exact ⟨_, hletter.trans (.byte rfl rfl (if_pos hb) (by simp)), rfl, by simp, rfl, rfl⟩

/-- A space or the bar in Idle. -/
theorem terminator_run (hs : p.state = .idle) {t : Byte} (ht : t = sp ∨ t = bar) :
    ∃ q, FoldedRun cfg p [t] q ∧ FieldsHeld q (afterTerminator t) (heldMessage p) p.addrV := by
  obtain rfl | rfl := ht
  · exact ⟨_, .byte hs rfl rfl (by simp [hs]), hs, by simp [afterTerminator], rfl, rfl⟩
  · exact ⟨_, .byte hs rfl rfl (by simp), rfl, fun _ => ⟨rfl, rfl⟩, rfl, rfl⟩

theorem voltage_run (hs : p.state = .idle) (hdec : ∀ d ∈ bs, isDec d = true) (hone : 1 ≤ bs.length)
    (hfour : bs.length ≤ 4) {t : Byte} (ht : t = sp ∨ t = bar) :
    ∃ q, FoldedRun cfg p (letV :: bs ++ [t]) q ∧ FieldsHeld q (afterTerminator t)
      { heldMessage p with voltage := some (BitVec.ofNat 14 (bs.foldl decShift 0#32).toNat) } p.addrV := by
  have hletter : FoldedRun cfg p [letV] { p with
      state := .voltage, acc := 0#32, neg := false, cnt := 0#4, crc := crcUpdate p.crc letV } :=
    .byte hs rfl rfl (by simp)
  have hdigits := hletter.trans (digits_run (.inl rfl) (by simpa using hfour) hdec)
  have hcnt : BitVec.ofNat 4 (0 + bs.length) ≠ 0#4 := by bv_omega
  have hend (c : Word32) (x : ParserRegs) (hx : x.cnt ≠ 0#4) : stepVoltage t { x with crc := c } =
      ruleOk (gotoState (afterTerminator t) (accReset (commitVolt { x with crc := c }))) := by
    rw [stepVoltage_eq, if_neg, if_pos ⟨ht, hx⟩]
    · rfl
    · obtain rfl | rfl := ht <;> simp [isDec_iff]
  exact ⟨_, hdigits.trans (.byte rfl rfl (hend _ _ hcnt) (afterTerminator_ne_initial t)), rfl, fun _ => ⟨rfl, rfl⟩,
    rfl, rfl⟩

/-- The letter of a Temperature field, with the sign where there is one. -/
theorem temperature_start (hs : p.state = .idle) (neg : Bool) :
    FoldedRun cfg p (letT :: if neg then [minus] else []) { p with
      state := .temperature, acc := 0#32, neg := neg, cnt := 0#4
      crc := crcFoldBytes p.crc (letT :: if neg then [minus] else []) } := by
  have hletter : FoldedRun cfg p [letT] { p with
      state := .temperature, acc := 0#32, neg := false, cnt := 0#4, crc := crcUpdate p.crc letT } :=
    .byte hs rfl rfl (by simp)
  cases neg with
  | false => exact hletter
  | true => exact hletter.trans (.byte rfl rfl rfl (by simp))

theorem temperature_run (hs : p.state = .idle) (neg : Bool) (hdec : ∀ d ∈ bs, isDec d = true) (hone : 1 ≤ bs.length)
    (hfour : bs.length ≤ 4) {t : Byte} (ht : t = sp ∨ t = bar) :
    ∃ q, FoldedRun cfg p ((letT :: if neg then [minus] else []) ++ bs ++ [t]) q ∧ FieldsHeld q (afterTerminator t)
      { heldMessage p with temperature := some (BitVec.ofInt 15
          (if neg then -((bs.foldl decShift 0#32).toNat : Int) else ((bs.foldl decShift 0#32).toNat : Int))) }
      p.addrV := by
  have hdigits := (temperature_start (cfg := cfg) hs neg).trans (digits_run (.inr rfl) (by simpa using hfour) hdec)
  have hcnt : BitVec.ofNat 4 (0 + bs.length) ≠ 0#4 := by bv_omega
  have hend (c : Word32) (x : ParserRegs) (hx : x.cnt ≠ 0#4) : stepTemperature t { x with crc := c } =
      ruleOk (gotoState (afterTerminator t) (accReset (commitTemp { x with crc := c }))) := by
    rw [stepTemperature_eq, if_neg, if_neg, if_pos ⟨ht, hx⟩]
    · rfl
    · obtain rfl | rfl := ht <;> simp
    · obtain rfl | rfl := ht <;> simp
  exact ⟨_, hdigits.trans (.byte rfl rfl (hend _ _ hcnt) (afterTerminator_ne_initial t)), rfl, fun _ => ⟨rfl, rfl⟩,
    rfl, rfl⟩

/-- Inside an unknown field every byte but a terminator is ignored, and folded. -/
theorem skipping_run (hs : p.state = .skipping) (hbs : ∀ x ∈ bs, x ≠ sp ∧ x ≠ bar) :
    FoldedRun cfg p bs { p with crc := crcFoldBytes p.crc bs } := by
  induction bs generalizing p with
  | nil => exact .nil
  | cons b bs ih =>
    obtain ⟨⟨hsp, hbar⟩, hbs⟩ := List.forall_mem_cons.mp hbs
    have hbyte : FoldedRun cfg p [b] { p with crc := crcUpdate p.crc b } :=
      .byte hs rfl (by simp only [stateRule, stepSkipping, if_neg hsp, if_neg hbar]) (by simp [hs])
    exact hbyte.trans (ih hs hbs)

theorem unknown_run (hs : p.state = .idle) (hb : isUpOther b = true) (hbs : ∀ x ∈ bs, x ≠ sp ∧ x ≠ bar) {t : Byte}
    (ht : t = sp ∨ t = bar) :
    ∃ q, FoldedRun cfg p (b :: bs ++ [t]) q ∧ FieldsHeld q (afterTerminator t) (heldMessage p) p.addrV := by
  have hletter : FoldedRun cfg p [b] { p with state := .skipping, crc := crcUpdate p.crc b } :=
    .byte hs rfl (stepIdle_upOther hb _) (by simp)
  have hbody := hletter.trans (skipping_run rfl hbs)
  obtain rfl | rfl := ht
  · exact ⟨_, hbody.trans (.byte rfl rfl rfl (by simp)), rfl, by simp [afterTerminator], rfl, rfl⟩
  · exact ⟨_, hbody.trans (.byte rfl rfl rfl (by simp)), rfl, fun _ => ⟨rfl, rfl⟩, rfl, rfl⟩

/-! The items of a frame (40_parser.md R131). -/

theorem delimitedField_run (hs : p.state = .idle) {f : List Byte} (hf : DelimitedField f) {t : Byte}
    (ht : t = sp ∨ t = bar) :
    ∃ q m, FoldedRun cfg p (f ++ [t]) q ∧ FieldsHeld q (afterTerminator t) m p.addrV := by
  cases hf with
  | voltage ds hdec hone hfour =>
    obtain ⟨q, hrun, hq⟩ := voltage_run hs hdec hone hfour ht
    exact ⟨q, _, hrun, hq⟩
  | temperature ds hdec hone hfour =>
    obtain ⟨q, hrun, hq⟩ := temperature_run hs false hdec hone hfour ht
    exact ⟨q, _, hrun, hq⟩
  | negative ds hdec hone hfour =>
    obtain ⟨q, hrun, hq⟩ := temperature_run hs true hdec hone hfour ht
    exact ⟨q, _, hrun, hq⟩
  | unknown letter rest hletter hrest =>
    obtain ⟨q, hrun, hq⟩ := unknown_run hs hletter hrest ht
    exact ⟨q, _, hrun, hq⟩

/-- The items of a frame and the bar, read from Idle. -/
theorem items_run {items : List Byte} {a : Bool} (hitems : Items items a) (hs : p.state = .idle) :
    ∃ q m, FoldedRun cfg p (items ++ [bar]) q ∧ FieldsHeld q .checksum m (p.addrV || a) := by
  induction hitems generalizing p with
  | nil =>
    obtain ⟨q, hrun, hq⟩ := terminator_run hs (.inr rfl)
    exact ⟨q, _, hrun, by rw [Bool.or_false]; exact hq⟩
  | space r a _ ih =>
    obtain ⟨q, hrun, hq⟩ := terminator_run hs (.inl rfl)
    obtain ⟨q', m, hrest, hq'⟩ := ih hq.state
    exact ⟨q', m, hrun.trans hrest, hq.addrV ▸ hq'⟩
  | address h r a hh _ ih =>
    obtain ⟨q, hrun, hq⟩ := address_run hs hh
    obtain ⟨q', m, hrest, hq'⟩ := ih hq.state
    exact ⟨q', m, hrun.trans hrest, by rw [Bool.or_true]; rw [hq.addrV, Bool.true_or] at hq'; exact hq'⟩
  | button d r a hd _ ih =>
    obtain ⟨q, hrun, hq⟩ := button_run hs hd
    obtain ⟨q', m, hrest, hq'⟩ := ih hq.state
    exact ⟨q', m, hrun.trans hrest, hq.addrV ▸ hq'⟩
  | delimited f r a hf _ ih =>
    obtain ⟨q, _, hrun, hq⟩ := delimitedField_run hs hf (.inl rfl)
    obtain ⟨q', m, hrest, hq'⟩ := ih hq.state
    exact ⟨q', m, by simpa using hrun.trans hrest, hq.addrV ▸ hq'⟩
  | last f hf =>
    obtain ⟨q, m, hrun, hq⟩ := delimitedField_run hs hf (.inr rfl)
    exact ⟨q, m, hrun, by rw [Bool.or_false]; exact hq⟩

/-! The checksum field and the end of the frame. -/

/-- The hex digits among spaces and carriage returns shift in, and the count saturates. -/
theorem checksum_run (hs : p.state = .checksum) (hbs : ∀ x ∈ bs, isHexLc x = true ∨ x = sp ∨ x = cr) :
    SilentRun cfg p bs { p with
      acc := (bs.filter isHexLc).foldl hexShift p.acc
      cnt := BitVec.ofNat 4 (min 15 (p.cnt.toNat + (bs.filter isHexLc).length)) } := by
  induction bs generalizing p with
  | nil =>
    have hcnt : min 15 p.cnt.toNat = p.cnt.toNat := by omega
    simp only [List.filter_nil, List.foldl_nil, List.length_nil, Nat.add_zero, hcnt, BitVec.ofNat_toNat,
      BitVec.setWidth_eq]
    exact .nil
  | cons b bs ih =>
    obtain ⟨hb, hbs⟩ := List.forall_mem_cons.mp hbs
    cases hhex : isHexLc b with
    | true =>
      have hbyte : SilentRun cfg p [b] (hexDigit b p) :=
        .byte ((parseRegs_checksum hs).trans (if_pos hhex)) (by simp [hexDigit, hs])
      have hcnt (n : Nat) : min 15 (min 15 (p.cnt.toNat + 1) + n) = min 15 (p.cnt.toNat + (n + 1)) := by omega
      have hrest := hbyte.trans (ih (p := hexDigit b p) hs hbs)
      simpa only [List.singleton_append, List.filter_cons_of_pos hhex, List.foldl_cons, List.length_cons,
        hexDigit, bumpCnt_toNat, hcnt] using hrest
    | false =>
      have hskip : b = sp ∨ b = cr := by simpa [hhex] using hb
      have hrule : stepChecksum cfg.policy b p = ruleOk p := by
        rw [stepChecksum, if_neg (by simp [hhex]), if_pos hskip]
      have hbyte : SilentRun cfg p [b] p := .byte ((parseRegs_checksum hs).trans hrule) (by simp [hs])
      rw [List.filter_cons_of_neg (by simp [hhex])]
      exact hbyte.trans (ih hs hbs)

/-- The newline after eight digits that the policy accepts emits the Message held. -/
theorem newline_emits (hs : p.state = .checksum) (haddr : p.addrV = true) (hcnt : p.cnt = 8#4)
    (hcrc : cfg.policy = .rejectOnMismatch → p.acc = crcFinal p.crc) :
    messages cfg p [nl] = [some (heldMessage p)] := by
  have hok : checksumOk cfg.policy p = true := by
    rw [checksumOk_iff]
    cases hpolicy : cfg.policy with
    | acceptRegardless => exact .inl rfl
    | rejectOnMismatch => exact .inr (hcrc hpolicy)
  have hend : stepChecksum cfg.policy nl p = checksumEnd cfg.policy p := rfl
  have hrule : parseRegs cfg nl p = ruleOk (gotoState .initial p) := by
    rw [parseRegs_checksum hs, hend, checksumEnd, if_neg (not_not.mpr hcnt), if_pos hok]
  have hemit : emitTest (gotoState .initial p) = some (heldMessage p) := (emitTest_initial rfl).trans (if_pos haddr)
  simp only [messages, hrule, ruleOk, hemit]

/-! A frame from the state PRESET leaves, up to its last byte. -/

/-- Junk, the frame start, the body and the bar: what `q` holds is what the fields of the body gave. -/
theorem frame_run {junk body : List Byte} (hjunk : colon ∉ junk)
    (hbody : FoldedRun cfg frameStartRegs (body ++ [bar]) q) :
    SilentRun cfg (preset p) (junk ++ colon :: body ++ [bar]) q ∧
      crcFinal q.crc = crc32 (colon :: body ++ [bar]) := by
  have hstart : SilentRun cfg ParserRegs.reset (junk ++ [colon]) frameStartRegs :=
    (junk_run rfl rfl hjunk).trans frameStart_run
  refine ⟨by simpa [preset_eq_reset] using hstart.trans hbody.toSilentRun, ?_⟩
  rw [hbody.folded]
  rfl

/-- The whole frame emits the Message its fields gave, on the newline alone. -/
theorem frame_messages {junk body digits : List Byte} {m : Message} (hjunk : colon ∉ junk)
    (hbody : FoldedRun cfg frameStartRegs (body ++ [bar]) q) (hq : FieldsHeld q .checksum m true)
    (hdigits : ∀ x ∈ digits, isHexLc x = true ∨ x = sp ∨ x = cr) (hcount : (digits.filter isHexLc).length = 8)
    (hcrc : cfg.policy = .rejectOnMismatch → hexNumber digits = crc32 (colon :: body ++ [bar])) :
    messages cfg (preset p) (junk ++ colon :: body ++ bar :: digits ++ [nl]) =
      List.replicate (junk.length + body.length + digits.length + 2) none ++ [some m] := by
  obtain ⟨hrun, hfinal⟩ := frame_run (p := p) hjunk hbody
  obtain ⟨hacc, hcnt⟩ := hq.cleared rfl
  have hchecksum := hrun.trans (checksum_run hq.state hdigits)
  rw [hacc, hcnt, hcount] at hchecksum
  have hnewline := newline_emits (cfg := cfg) (p := { q with acc := hexNumber digits, cnt := 8#4 }) hq.state hq.addrV
    rfl fun hpolicy => (hcrc hpolicy).trans hfinal.symm
  rw [show heldMessage { q with acc := hexNumber digits, cnt := 8#4 } = m from hq.held] at hnewline
  have hsplit : junk ++ colon :: body ++ bar :: digits ++ [nl] = junk ++ colon :: body ++ [bar] ++ digits ++ [nl] := by
    simp
  have hlength : (junk ++ colon :: body ++ [bar] ++ digits).length = junk.length + body.length + digits.length + 2 := by
    simp only [List.length_append, List.length_cons, List.length_nil]
    omega
  rw [hsplit, messages_append, hchecksum.silent, hchecksum.regs, hlength]
  exact congrArg _ hnewline

end

/-! The obligations. -/

/-- Settles O37: without the frame-start byte everything is junk. -/
theorem noFrameStartNoMessage : Obligations.NoFrameStartNoMessage := by
  intro cfg p w hs haddr hw
  obtain ⟨hregs, hsilent⟩ := junk_run (cfg := cfg) hs haddr hw
  exact ⟨hsilent, hregs⟩

/-- Settles O33: the fold starts at 0 with the frame-start byte, and the checksum field folds nothing. -/
theorem runningCrcCoversTheFrame : Obligations.RunningCrcCoversTheFrame := by
  intro cfg p junk items digits a hjunk hitems hdigits
  obtain ⟨q, m, hbody, hq⟩ := items_run (cfg := cfg) hitems (p := frameStartRegs) rfl
  obtain ⟨hrun, hfinal⟩ := frame_run (p := p) hjunk hbody
  have hregs := (hrun.trans (checksum_run hq.state hdigits)).regs
  have hsplit : junk ++ colon :: items ++ bar :: digits = junk ++ colon :: items ++ [bar] ++ digits := by simp
  rw [hsplit, hregs]
  exact ⟨hq.state, hfinal⟩

/-- Settles O34: the items hold some Message, and the newline emits it. -/
theorem acceptedStringsEmit : Obligations.AcceptedStringsEmit := by
  rintro cfg p w ⟨junk, items, digits, rfl, hjunk, hitems, hdigits, hcount, hcrc⟩
  obtain ⟨q, m, hbody, hq⟩ := items_run (cfg := cfg) hitems (p := frameStartRegs) rfl
  refine ⟨m, (frame_messages hjunk hbody (by simpa using hq) hdigits hcount hcrc).trans ?_⟩
  congr 2
  simp only [List.length_append, List.length_cons, List.length_nil]
  omega

end Sys2Proof.Machine

/-! PROOFS about the frames a conforming sender writes: what each field leaves in the Message, and the round trip
(spec/40_parser.md R136). -/

namespace Sys2Proof.Machine

/-! Decimal digits, as a sender writes them. -/

theorem isDec_digit (d : Fin 10) : isDec (BitVec.ofNat 8 (0x30 + d.val)) = true := by
  revert d
  decide

theorem decval_digit (d : Fin 10) : decval (BitVec.ofNat 8 (0x30 + d.val)) = d.val := by
  revert d
  decide

theorem isDec_of_mem_digitChars {ds : List (Fin 10)} : ∀ b ∈ digitChars ds, isDec b = true :=
  List.forall_mem_map.mpr fun d _ => isDec_digit d

@[simp] theorem digitChars_length (ds : List (Fin 10)) : (digitChars ds).length = ds.length := List.length_map ..

/-- Digits after a number of `k` digits spell a number of as many more. -/
theorem foldl_decimal_lt {k n : Nat} (ds : List (Fin 10)) (hn : n < 10 ^ k) :
    ds.foldl (fun n d => n * 10 + d.val) n < 10 ^ (k + ds.length) := by
  induction ds generalizing k n with
  | nil => exact hn
  | cons d ds ih =>
    have hnext : n * 10 + d.val < 10 ^ (k + 1) := by
      rw [pow_succ]
      omega
    have hrest := ih hnext
    rwa [Nat.add_assoc, Nat.add_comm 1] at hrest

theorem decimal_lt {ds : List (Fin 10)} (hfour : ds.length ≤ 4) : decimal ds < 10 ^ 4 := by
  have hlt : decimal ds < 10 ^ (0 + ds.length) := foldl_decimal_lt ds (by decide)
  rw [Nat.zero_add] at hlt
  exact hlt.trans_le (Nat.pow_le_pow_right (by decide) hfour)

/-- Up to nine digits the 32-bit accumulator does not wrap. -/
theorem foldl_decShift_digitChars {k : Nat} {acc : Word32} (ds : List (Fin 10)) (hacc : acc.toNat < 10 ^ k)
    (hnine : k + ds.length ≤ 9) :
    ((digitChars ds).foldl decShift acc).toNat = ds.foldl (fun n d => n * 10 + d.val) acc.toNat := by
  induction ds generalizing k acc with
  | nil => rfl
  | cons d ds ih =>
    rw [List.length_cons] at hnine
    have hnext : acc.toNat * 10 + d.val < 10 ^ (k + 1) := by
      rw [pow_succ]
      omega
    have hwidth : 10 ^ (k + 1) ≤ 10 ^ 9 := Nat.pow_le_pow_right (by decide) (by omega)
    have hshift : (decShift acc (BitVec.ofNat 8 (0x30 + d.val))).toNat = acc.toNat * 10 + d.val := by
      rw [decShift_toNat, decval_digit]
      rw [decval_digit]
      omega
    have hrest := ih (k := k + 1) (hshift ▸ hnext) (by omega)
    rw [hshift] at hrest
    exact hrest

/-- The accumulator holds the number a field of up to four digits spells. -/
theorem accumulated_digitChars {ds : List (Fin 10)} (hfour : ds.length ≤ 4) :
    ((digitChars ds).foldl decShift 0#32).toNat = decimal ds :=
  foldl_decShift_digitChars (k := 0) ds (by decide) (by omega)

/-! What a field leaves in the Message. -/

/-- The Message after one more field: the last field of a kind wins (40_parser.md R133). -/
def SentField.record : SentField → Message → Message
  | .address h, m => { m with address := h }
  | .voltage ds, m => { m with voltage := some (BitVec.ofNat 14 (decimal ds)) }
  | .temperature neg ds, m =>
    { m with temperature := some (BitVec.ofInt 15 (if neg then -(decimal ds : Int) else (decimal ds : Int))) }
  | .button d, m => { m with button := some (BitVec.ofNat 3 d.val) }
  | .unknown _ _, m => m

section

variable {cfg : Config} {p : ParserRegs}

/-- A field of the sender's grammar and the terminator after it, read from Idle. -/
theorem sentField_run (hs : p.state = .idle) {f : SentField} (hf : f.sendable = true) {t : Byte}
    (ht : t = sp ∨ t = bar) :
    ∃ q, FoldedRun cfg p (f.bytes ++ [t]) q ∧
      FieldsHeld q (afterTerminator t) (f.record (heldMessage p)) (p.addrV || !(sentAddresses [f]).isEmpty) := by
  cases f with
  | address h =>
    obtain ⟨q, hrun, hq⟩ := address_run (cfg := cfg) hs (isHexLc_hexchar h.isLt)
    obtain ⟨q', hend, hq'⟩ := terminator_run hq.state ht
    rw [hq.held, hexval_hexchar h.isLt, BitVec.ofNat_toNat, BitVec.setWidth_eq, hq.addrV] at hq'
    exact ⟨q', hrun.trans hend, by simpa [sentAddresses, SentField.record] using hq'⟩
  | voltage ds =>
    obtain ⟨hone, hfour⟩ := of_decide_eq_true hf
    obtain ⟨q, hrun, hq⟩ := voltage_run (cfg := cfg) hs isDec_of_mem_digitChars (by simpa using hone)
      (by simpa using hfour) ht
    rw [accumulated_digitChars hfour] at hq
    exact ⟨q, hrun, by simpa [sentAddresses, SentField.record] using hq⟩
  | temperature neg ds =>
    obtain ⟨hone, hfour⟩ := of_decide_eq_true hf
    obtain ⟨q, hrun, hq⟩ := temperature_run (cfg := cfg) hs neg isDec_of_mem_digitChars (by simpa using hone)
      (by simpa using hfour) ht
    rw [accumulated_digitChars hfour] at hq
    exact ⟨q, hrun, by simpa [sentAddresses, SentField.record] using hq⟩
  | button d =>
    have hbtn : isBtn (BitVec.ofNat 8 (0x30 + d.val)) = true := by revert d; decide
    have hval : decval (BitVec.ofNat 8 (0x30 + d.val)) = d.val := by revert d; decide
    obtain ⟨q, hrun, hq⟩ := button_run (cfg := cfg) hs hbtn
    obtain ⟨q', hend, hq'⟩ := terminator_run hq.state ht
    rw [hq.held, hval, hq.addrV] at hq'
    exact ⟨q', hrun.trans hend, by simpa [sentAddresses, SentField.record] using hq'⟩
  | unknown letter rest =>
    have hgrammar : isUpOther letter = true ∧ ∀ x ∈ rest, x ≠ sp ∧ x ≠ bar := by
      simpa [SentField.sendable] using hf
    obtain ⟨q, hrun, hq⟩ := unknown_run (cfg := cfg) hs hgrammar.1 hgrammar.2 ht
    exact ⟨q, hrun, by simpa [sentAddresses, SentField.record] using hq⟩

theorem sentAddresses_cons (f : SentField) (fs : List SentField) :
    sentAddresses (f :: fs) = sentAddresses [f] ++ sentAddresses fs :=
  List.filterMap_append (l := [f])

/-- The frame body and the bar, read from Idle. -/
theorem sentBody_run {fs : List SentField} (hs : p.state = .idle) (hfs : ∀ f ∈ fs, f.sendable = true) :
    ∃ q, FoldedRun cfg p (sentBody fs ++ [bar]) q ∧
      FieldsHeld q .checksum (fs.foldl (fun m f => f.record m) (heldMessage p))
        (p.addrV || !(sentAddresses fs).isEmpty) := by
  induction fs using sentBody.induct generalizing p with
  | case1 =>
    obtain ⟨q, hrun, hq⟩ := terminator_run (cfg := cfg) hs (.inr rfl)
    exact ⟨q, hrun, (Bool.or_false p.addrV).symm ▸ hq⟩
  | case2 f => exact sentField_run hs (hfs f (by simp)) (.inr rfl)
  | case3 f g fs ih =>
    obtain ⟨hf, hrest⟩ := List.forall_mem_cons.mp hfs
    obtain ⟨q, hrun, hq⟩ := sentField_run (cfg := cfg) hs hf (.inl rfl)
    obtain ⟨q', hbody, hq'⟩ := ih hq.state hrest
    have haddr : (p.addrV || !(sentAddresses [f]).isEmpty || !(sentAddresses (g :: fs)).isEmpty) =
        (p.addrV || !(sentAddresses (f :: g :: fs)).isEmpty) := by
      rw [sentAddresses_cons f (g :: fs)]
      cases sentAddresses [f] <;> simp
    rw [hq.held, hq.addrV, haddr] at hq'
    exact ⟨q', by simpa [sentBody] using hrun.trans hbody, hq'⟩

end

/-! The Message after all fields holds the last value written of each kind. -/

theorem foldl_record_address (fs : List SentField) (m : Message) :
    (fs.foldl (fun m f => f.record m) m).address = (sentAddresses fs).getLastD m.address := by
  induction fs generalizing m with
  | nil => rfl
  | cons f fs ih =>
    rw [List.foldl_cons, ih]
    cases f with
    | address => exact (List.getLastD_cons ..).symm
    | _ => rfl

theorem foldl_record_voltage (fs : List SentField) (m : Message) :
    (fs.foldl (fun m f => f.record m) m).voltage =
      ((sentVoltages fs).map fun v => some (BitVec.ofNat 14 v)).getLastD m.voltage := by
  induction fs generalizing m with
  | nil => rfl
  | cons f fs ih =>
    rw [List.foldl_cons, ih]
    cases f with
    | voltage => exact (List.getLastD_cons ..).symm
    | _ => rfl

theorem foldl_record_temperature (fs : List SentField) (m : Message) :
    (fs.foldl (fun m f => f.record m) m).temperature =
      ((sentTemperatures fs).map fun v => some (BitVec.ofInt 15 v)).getLastD m.temperature := by
  induction fs generalizing m with
  | nil => rfl
  | cons f fs ih =>
    rw [List.foldl_cons, ih]
    cases f with
    | temperature => exact (List.getLastD_cons ..).symm
    | _ => rfl

theorem foldl_record_button (fs : List SentField) (m : Message) :
    (fs.foldl (fun m f => f.record m) m).button =
      ((sentButtons fs).map fun v => some (BitVec.ofNat 3 v)).getLastD m.button := by
  induction fs generalizing m with
  | nil => rfl
  | cons f fs ih =>
    rw [List.foldl_cons, ih]
    cases f with
    | button => exact (List.getLastD_cons ..).symm
    | _ => rfl

/-! Each value written fits its register. -/

theorem sentVoltages_lt {fs : List SentField} (hfs : ∀ f ∈ fs, f.sendable = true) :
    ∀ v ∈ sentVoltages fs, v < 10 ^ 4 := by
  intro v hv
  obtain ⟨f, hf, hfv⟩ := List.mem_filterMap.mp hv
  have hsend := hfs f hf
  cases f <;> cases hfv
  exact decimal_lt (of_decide_eq_true hsend).2

theorem sentTemperatures_range {fs : List SentField} (hfs : ∀ f ∈ fs, f.sendable = true) :
    ∀ v ∈ sentTemperatures fs, -9999 ≤ v ∧ v ≤ 9999 := by
  intro v hv
  obtain ⟨f, hf, hfv⟩ := List.mem_filterMap.mp hv
  have hsend := hfs f hf
  cases f <;> cases hfv
  have hlt := decimal_lt (of_decide_eq_true hsend).2
  split <;> omega

theorem sentButtons_lt (fs : List SentField) : ∀ v ∈ sentButtons fs, v < 6 := by
  intro v hv
  obtain ⟨f, -, hfv⟩ := List.mem_filterMap.mp hv
  cases f with
  | button d =>
    cases hfv
    exact d.isLt
  | _ => cases hfv

/-- An optional field of which at most one value was written, and fits, reads back as that value. -/
theorem toList_map_getLastD {α β : Type} {vs : List α} {enc : α → β} {dec : β → α} (hone : vs.length ≤ 1)
    (hfit : ∀ v ∈ vs, dec (enc v) = v) :
    ((vs.map fun v => some (enc v)).getLastD none).toList.map dec = vs := by
  match vs with
  | [] => rfl
  | [v] => simpa using hfit v
  | _ :: _ :: _ => simp at hone

/-! The checksum a sender writes. -/

theorem isHexLc_of_mem_hex8 (c : Word32) : ∀ x ∈ hex8 c, isHexLc x = true := (hexDigitsReadBack c).2.2.1

theorem filter_hex8 (c : Word32) : (hex8 c).filter isHexLc = hex8 c :=
  List.filter_eq_self.mpr (isHexLc_of_mem_hex8 c)

theorem hexNumber_hex8 (c : Word32) : hexNumber (hex8 c) = c := by
  rw [hexNumber, filter_hex8]
  exact (hexDigitsReadBack c).2.2.2

/-- Settles O36: the fields leave the last value of each kind, and the sender's checksum satisfies either policy. -/
theorem sentFramesAreReceived : Obligations.SentFramesAreReceived := by
  intro cfg p fs h hfs haddr hvolt htemp hbtn
  obtain ⟨q, hbody, hq⟩ := sentBody_run (cfg := cfg) (p := frameStartRegs) rfl hfs
  rw [haddr] at hq
  have hframe : frame (sentBody fs) =
      [] ++ colon :: sentBody fs ++ bar :: hex8 (crc32 (colon :: sentBody fs ++ [bar])) ++ [nl] := by
    simp [frame, frameBody]
  refine ⟨fs.foldl (fun m f => f.record m) (heldMessage frameStartRegs), ?_, ?_, ?_, ?_, ?_⟩
  · rw [hframe, frame_messages (by simp) hbody hq (fun x hx => .inl (isHexLc_of_mem_hex8 _ x hx))
      (by rw [filter_hex8, hex8_length]) fun _ => hexNumber_hex8 _]
    congr 2
    simp only [List.length_nil, hex8_length]
    omega
  · rw [foldl_record_address, haddr]
    rfl
  · rw [foldl_record_voltage]
    refine toList_map_getLastD hvolt fun v hv => ?_
    have hlt := sentVoltages_lt hfs v hv
    rw [BitVec.toNat_ofNat]
    omega
  · rw [foldl_record_temperature]
    refine toList_map_getLastD htemp fun v hv => ?_
    have hrange := sentTemperatures_range hfs v hv
    rw [BitVec.toInt_ofInt, Int.bmod]
    omega
  · rw [foldl_record_button]
    refine toList_map_getLastD hbtn fun v hv => ?_
    have hlt := sentButtons_lt fs v hv
    rw [BitVec.toNat_ofNat]
    omega

end Sys2Proof.Machine

/-! PROOFS about whole byte sequences read backwards: what has been read when the Parser stands in a state, and that
only the accepted language closes a frame with an address (spec/40_parser.md R131). -/

namespace Sys2Proof.Machine

/-! Items that are complete: any items may follow. -/

/-- Every continuation of `u` by items is items again, with the address of `u` counted. -/
def ClosedItems (u : List Byte) (a : Bool) : Prop := ∀ v b, Items v b → Items (u ++ v) (a || b)

section

variable {u f : List Byte} {a : Bool}

theorem ClosedItems.nil : ClosedItems [] false := fun _ _ hv => hv

theorem ClosedItems.items (hu : ClosedItems u a) : Items u a := by simpa using hu [] false .nil

theorem ClosedItems.space (hu : ClosedItems u a) : ClosedItems (u ++ [sp]) a := fun v b hv => by
  simpa using hu (sp :: v) b (.space v b hv)

theorem ClosedItems.address (hu : ClosedItems u a) {h : Byte} (hh : isHexLc h = true) :
    ClosedItems (u ++ [letA] ++ [h]) true := fun v b hv => by
  simpa using hu (letA :: h :: v) true (.address h v b hh hv)

theorem ClosedItems.button (hu : ClosedItems u a) {d : Byte} (hd : isBtn d = true) :
    ClosedItems (u ++ [letB] ++ [d]) a := fun v b hv => by
  simpa using hu (letB :: d :: v) b (.button d v b hd hv)

theorem ClosedItems.delimited (hu : ClosedItems u a) (hf : DelimitedField f) : ClosedItems (u ++ f ++ [sp]) a :=
  fun v b hv => by simpa using hu (f ++ sp :: v) b (.delimited f v b hf hv)

theorem ClosedItems.last (hu : ClosedItems u a) (hf : DelimitedField f) : Items (u ++ f) a := by
  simpa using hu f false (.last f hf)

end

/-! Inside a frame, before the bar. -/

/-- The bytes since the frame start, when the Parser holds `p`: complete items, and the field it is in. -/
inductive BodySoFar : List Byte → ParserRegs → Prop where
  | idle {body : List Byte} {p : ParserRegs} :
    p.state = .idle → ClosedItems body p.addrV → BodySoFar body p
  | address {u : List Byte} {p : ParserRegs} :
    p.state = .address → ClosedItems u p.addrV → BodySoFar (u ++ [letA]) p
  | button {u : List Byte} {p : ParserRegs} :
    p.state = .button → ClosedItems u p.addrV → BodySoFar (u ++ [letB]) p
  | voltage {u ds : List Byte} {p : ParserRegs} :
    p.state = .voltage → ClosedItems u p.addrV → (∀ d ∈ ds, isDec d = true) → p.cnt.toNat = ds.length →
    ds.length ≤ 4 → BodySoFar (u ++ letV :: ds) p
  | temperature {u ds : List Byte} {p : ParserRegs} :
    p.state = .temperature → ClosedItems u p.addrV → (∀ d ∈ ds, isDec d = true) → p.cnt.toNat = ds.length →
    ds.length ≤ 4 → BodySoFar (u ++ (letT :: (if p.neg then [minus] else []) ++ ds)) p
  | skipping {u rest : List Byte} {letter : Byte} {p : ParserRegs} :
    p.state = .skipping → ClosedItems u p.addrV → isUpOther letter = true → (∀ x ∈ rest, x ≠ sp ∧ x ≠ bar) →
    BodySoFar (u ++ letter :: rest) p

/-- What one more byte makes of it: a violation, more of the body, or the bar that ends it. -/
inductive BodyNext (body : List Byte) (b : Byte) (q : ParserRegs) : Prop where
  | invalid : q.state = .invalid → BodyNext body b q
  | more : BodySoFar (body ++ [b]) q → BodyNext body b q
  | barRead : b = bar → q.state = .checksum → Items body q.addrV → q.acc = 0#32 → q.cnt = 0#4 → BodyNext body b q

/-- The running CRC is no part of the shape. -/
theorem BodySoFar.foldByte {body : List Byte} {p : ParserRegs} (h : BodySoFar body p) (cfg : Config) (b : Byte) :
    BodySoFar body (foldByte cfg b p) := by
  cases h with
  | idle hs hu => exact .idle hs hu
  | address hs hu => exact .address hs hu
  | button hs hu => exact .button hs hu
  | voltage hs hu hdec hcnt hfour => exact .voltage hs hu hdec hcnt hfour
  | temperature hs hu hdec hcnt hfour => exact .temperature (p := Machine.foldByte cfg b p) hs hu hdec hcnt hfour
  | skipping hs hu hletter hrest => exact .skipping hs hu hletter hrest

section

variable {cfg : Config} {u ds : List Byte} {b : Byte} {p q : ParserRegs}

/-- A terminator completes a field that is long enough. -/
theorem BodyNext.of_delimited {f : List Byte} (hb : b = sp ∨ b = bar) (hf : DelimitedField f)
    (hu : ClosedItems u q.addrV) (hs : q.state = afterTerminator b) (hclear : b = bar → q.acc = 0#32 ∧ q.cnt = 0#4) :
    BodyNext (u ++ f) b q := by
  obtain rfl | rfl := hb
  · exact .more (.idle hs (hu.delimited hf))
  · exact .barRead rfl hs (hu.last hf) (hclear rfl).1 (hclear rfl).2

theorem idle_next (hs : p.state = .idle) (hu : ClosedItems u p.addrV) : BodyNext u b (stepIdle b p).1 := by
  obtain ⟨rfl, h⟩ | ⟨rfl, h⟩ | ⟨rfl, h⟩ | ⟨rfl, h⟩ | ⟨rfl, h⟩ | ⟨rfl, h⟩ | ⟨hup, h⟩ | ⟨-, h⟩ := stepIdle_cases b p <;>
    rw [h]
  · exact .more (.address rfl hu)
  · exact .more (.voltage (ds := []) rfl hu (by simp) rfl (by simp))
  · exact .more (.temperature (ds := []) (p := gotoState .temperature (accReset p)) rfl hu (by simp) rfl (by simp))
  · exact .more (.button rfl hu)
  · exact .more (.idle hs hu.space)
  · exact .barRead rfl rfl hu.items rfl rfl
  · exact .more (.skipping (rest := []) rfl hu hup (by simp))
  · exact .invalid rfl

theorem address_next (hu : ClosedItems u p.addrV) : BodyNext (u ++ [letA]) b (stepAddress b p).1 := by
  unfold stepAddress
  split
  case isTrue hhex => exact .more (.idle rfl (hu.address hhex))
  case isFalse => exact .invalid rfl

theorem button_next (hu : ClosedItems u p.addrV) : BodyNext (u ++ [letB]) b (stepButton b p).1 := by
  unfold stepButton
  split
  case isTrue hbtn => exact .more (.idle rfl (hu.button hbtn))
  case isFalse => exact .invalid rfl

/-- One more digit is counted. -/
theorem bumpCnt_toNat_of_length (hcnt : p.cnt.toNat = ds.length) (hfour : ds.length ≤ 4) :
    (bumpCnt p.cnt).toNat = (ds ++ [b]).length := by
  rw [bumpCnt_toNat, hcnt, List.length_append, List.length_singleton]
  omega

theorem voltage_next (hs : p.state = .voltage) (hu : ClosedItems u p.addrV) (hdec : ∀ d ∈ ds, isDec d = true)
    (hcnt : p.cnt.toNat = ds.length) (hfour : ds.length ≤ 4) : BodyNext (u ++ letV :: ds) b (stepVoltage b p).1 := by
  rw [stepVoltage_eq]
  split
  case isTrue hdigit =>
    have hne : p.cnt.toNat ≠ 4 := fun h => hdigit.2 (BitVec.eq_of_toNat_eq h)
    refine .more ?_
    rw [List.append_assoc]
    exact .voltage hs hu (List.forall_mem_append.mpr ⟨hdec, by simpa using hdigit.1⟩)
      (bumpCnt_toNat_of_length hcnt hfour) (by simp; omega)
  case isFalse =>
    split
    case isTrue hterm =>
      have hone : p.cnt.toNat ≠ 0 := fun h => hterm.2 (BitVec.eq_of_toNat_eq h)
      exact .of_delimited hterm.1 (.voltage ds hdec (by omega) hfour) hu rfl fun _ => ⟨rfl, rfl⟩
    case isFalse => exact .invalid rfl

theorem temperature_next (hs : p.state = .temperature) (hu : ClosedItems u p.addrV) (hdec : ∀ d ∈ ds, isDec d = true)
    (hcnt : p.cnt.toNat = ds.length) (hfour : ds.length ≤ 4) :
    BodyNext (u ++ (letT :: (if p.neg then [minus] else []) ++ ds)) b (stepTemperature b p).1 := by
  generalize hsign : (if p.neg then [minus] else []) = sign
  rw [stepTemperature_eq]
  split
  case isTrue hminus =>
    obtain ⟨rfl, hzero, hneg⟩ := hminus
    obtain rfl : ds = [] := List.eq_nil_of_length_eq_zero (by rw [← hcnt, hzero]; rfl)
    obtain rfl : sign = [] := by simpa [hneg] using hsign.symm
    refine .more ?_
    rw [List.append_assoc]
    exact .temperature (ds := []) (p := { p with neg := true }) hs hu hdec hcnt hfour
  case isFalse =>
    split
    case isTrue hdigit =>
      obtain ⟨hlow, hhigh, hne4⟩ := hdigit
      have hne : p.cnt.toNat ≠ 4 := fun h => hne4 (BitVec.eq_of_toNat_eq h)
      refine .more ?_
      rw [List.append_assoc, List.append_assoc, ← hsign]
      exact .temperature (p := { p with acc := decShift p.acc b, cnt := bumpCnt p.cnt }) hs hu
        (List.forall_mem_append.mpr ⟨hdec, by simpa using (isDec_iff b).mpr ⟨hlow, hhigh⟩⟩)
        (bumpCnt_toNat_of_length hcnt hfour) (by simp; omega)
    case isFalse =>
      split
      case isTrue hterm =>
        have hone : p.cnt.toNat ≠ 0 := fun h => hterm.2 (BitVec.eq_of_toNat_eq h)
        refine .of_delimited hterm.1 ?_ hu rfl fun _ => ⟨rfl, rfl⟩
        rw [← hsign]
        cases p.neg with
        | false => exact .temperature ds hdec (by omega) hfour
        | true => exact .negative ds hdec (by omega) hfour
      case isFalse => exact .invalid rfl

theorem skipping_next {letter : Byte} {rest : List Byte} (hs : p.state = .skipping) (hu : ClosedItems u p.addrV)
    (hletter : isUpOther letter = true) (hrest : ∀ x ∈ rest, x ≠ sp ∧ x ≠ bar) :
    BodyNext (u ++ letter :: rest) b (stepSkipping b p).1 := by
  have hfield : DelimitedField (letter :: rest) := .unknown letter rest hletter hrest
  unfold stepSkipping
  split_ifs with hsp hbar
  · exact .of_delimited (.inl hsp) hfield hu (by simp [hsp, afterTerminator, ruleOk]) (by simp [hsp])
  · exact .of_delimited (.inr hbar) hfield hu (by simp [hbar, afterTerminator, ruleOk]) fun _ => ⟨rfl, rfl⟩
  · refine .more ?_
    rw [List.append_assoc]
    exact .skipping hs hu hletter (List.forall_mem_append.mpr ⟨hrest, by simpa using ⟨hsp, hbar⟩⟩)

theorem BodySoFar.next {body : List Byte} (h : BodySoFar body p) : BodyNext body b (stateRule cfg p.state b p).1 := by
  cases h with
  | idle hs hu => rw [hs]; exact idle_next hs hu
  | address hs hu => rw [hs]; exact address_next hu
  | button hs hu => rw [hs]; exact button_next hu
  | voltage hs hu hdec hcnt hfour => rw [hs]; exact voltage_next hs hu hdec hcnt hfour
  | temperature hs hu hdec hcnt hfour => rw [hs]; exact temperature_next hs hu hdec hcnt hfour
  | skipping hs hu hletter hrest => rw [hs]; exact skipping_next hs hu hletter hrest

/-- In these states every byte is folded. -/
theorem BodySoFar.crcFold_eq {body : List Byte} (h : BodySoFar body p) (c : Word32) :
    crcFold cfg p.state b c = crcUpdate c b := by
  cases h with
  | idle hs | address hs | button hs | voltage hs | temperature hs | skipping hs => rw [hs]; rfl

theorem BodySoFar.state_ne_initial {body : List Byte} (h : BodySoFar body p) : p.state ≠ .initial := by
  cases h with
  | idle hs | address hs | button hs | voltage hs | temperature hs | skipping hs => simp [hs]

end

/-! From the state PRESET leaves. -/

/-- A frame up to a point in its checksum field: the digits read are those counted, and the CRC covers the frame. -/
structure ChecksumSoFar (junk items digits : List Byte) (p : ParserRegs) : Prop where
  state : p.state = .checksum
  noColon : colon ∉ junk
  grammar : Items items p.addrV
  allowed : ∀ x ∈ digits, isHexLc x = true ∨ x = sp ∨ x = cr
  count : p.cnt.toNat = min 15 (digits.filter isHexLc).length
  number : p.acc = hexNumber digits
  crc : crcFinal p.crc = crc32 (colon :: items ++ [bar])

/-- The bytes read when the Parser holds `p` and no frame has been closed. -/
inductive ReadSoFar : List Byte → ParserRegs → Prop where
  | junk {w : List Byte} : colon ∉ w → ReadSoFar w ParserRegs.reset
  | body {junk body : List Byte} {p : ParserRegs} :
    colon ∉ junk → p.crc = crcFoldBytes 0#32 (colon :: body) → BodySoFar body p → ReadSoFar (junk ++ colon :: body) p
  | checksum {junk items digits : List Byte} {p : ParserRegs} :
    ChecksumSoFar junk items digits p → ReadSoFar (junk ++ colon :: items ++ bar :: digits) p
  | invalid {w : List Byte} {p : ParserRegs} : p.state = .invalid → ReadSoFar w p

/-- In Initial only junk has been read. -/
theorem ReadSoFar.eq_reset {w : List Byte} {p : ParserRegs} (h : ReadSoFar w p) (hs : p.state = .initial) :
    p = ParserRegs.reset := by
  cases h with
  | junk => rfl
  | body _ _ hbody => exact absurd hs hbody.state_ne_initial
  | checksum hsum => simp [hsum.state] at hs
  | invalid hinvalid => simp [hinvalid] at hs

section

variable {cfg : Config} {w junk items digits : List Byte} {b : Byte} {p : ParserRegs}

/-- Junk goes on, or the frame starts. -/
theorem junk_next (hw : colon ∉ w) : ReadSoFar (w ++ [b]) (parseRegs cfg b ParserRegs.reset).1 := by
  by_cases hb : b = colon
  · subst hb
    have hrule : parseRegs cfg colon ParserRegs.reset = ruleOk frameStartRegs :=
      (parseRegs_initial_colon rfl).trans (by cases cfg.crcRestart <;> rfl)
    rw [hrule]
    exact .body hw rfl (.idle rfl .nil)
  · rw [parseRegs_initial_other rfl hb]
    exact .junk (by simpa [hw] using Ne.symm hb)

theorem body_next {body : List Byte} (hjunk : colon ∉ junk) (hcrc : p.crc = crcFoldBytes 0#32 (colon :: body))
    (hbody : BodySoFar body p) : ReadSoFar (junk ++ colon :: body ++ [b]) (parseRegs cfg b p).1 := by
  have hcrc' : (parseRegs cfg b p).1.crc = crcFoldBytes 0#32 (colon :: body ++ [b]) := by
    rw [parseRegs_crc, hbody.crcFold_eq, hcrc, crcFoldBytes_append]
    rfl
  have hnext : BodyNext body b (parseRegs cfg b p).1 := (hbody.foldByte cfg b).next
  cases hnext with
  | invalid hs => exact .invalid hs
  | more hmore =>
    rw [List.append_assoc]
    exact .body hjunk hcrc' hmore
  | barRead hb hs hitems hacc hcnt =>
    subst hb
    refine .checksum (digits := []) ⟨hs, hjunk, hitems, by simp, by rw [hcnt]; rfl, hacc, ?_⟩
    rw [hcrc']
    rfl

/-- The checksum field goes on, or newline ends it: with eight digits that the policy accepts it closes the frame. -/
theorem checksum_next (h : ChecksumSoFar junk items digits p) :
    ReadSoFar (junk ++ colon :: items ++ bar :: digits ++ [b]) (parseRegs cfg b p).1 ∨
    (b = nl ∧ p.cnt = 8#4 ∧ checksumOk cfg.policy p = true ∧ parseRegs cfg b p = ruleOk (gotoState .initial p)) := by
  have hsplit : junk ++ colon :: items ++ bar :: digits ++ [b] = junk ++ colon :: items ++ bar :: (digits ++ [b]) := by
    simp
  rw [hsplit, parseRegs_checksum h.state, stepChecksum]
  split_ifs with hhex hskip hnl
  · have hfilter : (digits ++ [b]).filter isHexLc = digits.filter isHexLc ++ [b] := by simp [hhex]
    refine .inl (.checksum ⟨h.state, h.noColon, h.grammar, List.forall_mem_append.mpr ⟨h.allowed, by simp [hhex]⟩,
      ?_, ?_, h.crc⟩)
    · have hcount := h.count
      simp only [ruleOk, hexDigit, bumpCnt_toNat, hfilter, List.length_append, List.length_singleton]
      omega
    · simp only [ruleOk, hexDigit, h.number, hexNumber, hfilter, List.foldl_append, List.foldl_cons, List.foldl_nil]
  · have hfilter : (digits ++ [b]).filter isHexLc = digits.filter isHexLc := by simp [hhex]
    refine .inl (.checksum ⟨h.state, h.noColon, h.grammar, List.forall_mem_append.mpr ⟨h.allowed, by simp [hskip]⟩,
      ?_, ?_, h.crc⟩)
    · rw [hfilter]
      exact h.count
    · rw [hexNumber, hfilter]
      exact h.number
  · obtain ⟨-, hr⟩ | ⟨hcnt, hok, hr⟩ | ⟨-, -, hr⟩ := checksumEnd_cases cfg.policy p <;> rw [hr]
    · exact .inl (.invalid rfl)
    · exact .inr ⟨hnl, hcnt, hok, rfl⟩
    · exact .inl (.invalid rfl)
  · exact .inl (.invalid rfl)

/-- Every byte but one that closes a frame. -/
theorem ReadSoFar.next (h : ReadSoFar w p) :
    ReadSoFar (w ++ [b]) (parseRegs cfg b p).1 ∨
    (p.state = .checksum ∧ (parseRegs cfg b p).1.state = .initial ∧
      ((parseRegs cfg b p).1.addrV = true → Accepted cfg (w ++ [b]))) := by
  cases h with
  | junk hw => exact .inl (junk_next hw)
  | body hjunk hcrc hbody => exact .inl (body_next hjunk hcrc hbody)
  | invalid hs => exact .inl (.invalid (by rw [parseRegs_invalid hs]; exact hs))
  | checksum hsum =>
    refine (checksum_next hsum).imp id ?_
    rintro ⟨rfl, hcnt, hok, hrule⟩
    rw [hrule]
    refine ⟨hsum.state, rfl, fun haddr => ?_⟩
    have hcount := hsum.count
    rw [hcnt] at hcount
    refine ⟨_, _, _, rfl, hsum.noColon, haddr ▸ hsum.grammar, hsum.allowed, ?_, fun hpolicy => ?_⟩
    · change 8 = min 15 _ at hcount
      omega
    · obtain haccept | hmatch := (checksumOk_iff _ _).mp hok
      · simp [hpolicy] at haccept
      · rw [← hsum.number, ← hsum.crc, hmatch]

/-- The shape after any sequence in which nothing has closed a frame. -/
theorem readSoFar_of_unclosed (hopen : ∀ u v, w = u ++ v → ¬ ClosesFrame cfg (preset p) u) :
    ReadSoFar w (parseAll cfg (preset p) w) := by
  induction w using List.reverseRecOn with
  | nil => exact .junk (by simp)
  | append_singleton w b ih =>
    have hbefore := ih fun u v huv => hopen u (v ++ [b]) (by rw [huv, List.append_assoc])
    have hbyte : parseAll cfg (preset p) (w ++ [b]) = (parseRegs cfg b (parseAll cfg (preset p) w)).1 :=
      parseAll_append cfg (preset p) w [b]
    rw [hbyte]
    refine (hbefore.next (b := b)).resolve_right ?_
    rintro ⟨hs, hs', -⟩
    exact hopen (w ++ [b]) [] (by simp) ⟨w, b, rfl, hs, hbyte ▸ hs'⟩

end

/-- Settles O35: before the last byte the shape is known, and the only byte that emits closes a frame. -/
theorem onlyAcceptedStringsEmit : Obligations.OnlyAcceptedStringsEmit := by
  intro cfg p w hopen hemit
  obtain ⟨m, hm⟩ := Option.isSome_iff_exists.mp hemit
  obtain ⟨hs, haddr, -⟩ := (emitTest_eq_some _ m).mp hm
  induction w using List.reverseRecOn with
  | nil => cases haddr
  | append_singleton w b _ =>
    have hbefore : ReadSoFar w (parseAll cfg (preset p) w) := readSoFar_of_unclosed fun u v huv =>
      hopen u (v ++ [b]) (by rw [huv, List.append_assoc]) (by simp)
    have hbyte : parseAll cfg (preset p) (w ++ [b]) = (parseRegs cfg b (parseAll cfg (preset p) w)).1 :=
      parseAll_append cfg (preset p) w [b]
    rw [hbyte] at hs haddr
    obtain hafter | ⟨-, -, haccepted⟩ := hbefore.next (cfg := cfg) (b := b)
    · rw [hafter.eq_reset hs] at haddr
      cases haddr
    · exact haccepted haddr

end Sys2Proof.Machine
